-- ==== Sys2Proof/Word.lean ====
section
/-! DEFINITION. The word types: a register, memory word, instruction word and bus address are 32 bits, a byte is 8
(00_scope.md R9 XLEN, ALEN; R11). Bit numbering is that of R10: bit 31 is the most significant. -/

namespace Sys2Proof

/-- A register value, a memory word, an instruction word or an address pattern (R9, R11). -/
abbrev Word := BitVec 32

/-- A byte, 0..255 (R11). -/
abbrev Byte := BitVec 8

/-- A register index: 4 bits, so none outside 0..15 can be presented (10_state.md R23, decision D8). -/
abbrev RegIndex := BitVec 4

/-- A condition code: selector `c[3:1]` and negation bit `c[0]` (30_encoding.md R94). -/
abbrev CondCode := BitVec 4

end Sys2Proof
end

