-- ==== Sys2Proof/Syntax.lean ====
section
/-! DEFINITION. What an instruction is: the rows of spec/opcode_table.json (`Instr`), and the Instruction record the
external decoder hands back (`Instruction`), whose execute behaviour is a procedure over the seven operations of
42_execute_interface.md (`Behaviour`). -/

namespace Sys2Proof

/-- The four condition flags by name: Negative, Zero, Carry, Overflow (10_state.md R28). -/
inductive Flag where
  | N
  | Z
  | C
  | O
  deriving DecidableEq, Repr

/-- An execute behaviour (42_execute_interface.md R170): a finite, deterministic procedure over the seven operations,
each later operation possibly depending on the results of earlier ones. A path of the tree is a run of the procedure:
every path is finite (R180), nothing but the seven operations can be said (R179), and nothing follows a
`haltRequest` (R177). -/
inductive Behaviour where
  /-- The behaviour returns. -/
  | done
  /-- `RegGet(i)`, R171; the rest may use the value read. -/
  | regGet (i : RegIndex) (k : Word → Behaviour)
  /-- `RegSet(i, v)`, R172. -/
  | regSet (i : RegIndex) (v : Word) (k : Behaviour)
  /-- `FlagGet(f)`, R173; the rest may use the value read. -/
  | flagGet (f : Flag) (k : Bool → Behaviour)
  /-- `FlagSet(f, b)`, R174. -/
  | flagSet (f : Flag) (b : Bool) (k : Behaviour)
  /-- `BusRead(addr)`, R175; the rest may use the word read. -/
  | busRead (addr : Word) (k : Word → Behaviour)
  /-- `BusWrite(addr, v)`, R176. -/
  | busWrite (addr : Word) (v : Word) (k : Behaviour)
  /-- `HaltRequest()`, R177: the last operation of its behaviour. -/
  | haltRequest
  deriving Inhabited

/-- The Instruction record produced by the external decoder (30_encoding.md R95). -/
structure Instruction where
  /-- The condition code (R94). -/
  cond : CondCode
  /-- The execute behaviour (R170). -/
  exec : Behaviour
  /-- The textual form for tracing (40_engine_cycle.md R117). -/
  text : String
  deriving Inhabited

/-- The rows of spec/opcode_table.json (30_encoding.md R101), one constructor each: the two classes of instruction
words, and the sixteen condition codes an EXT word's record may carry. -/
inductive Instr where
  /-- GUARD: a word below 16; `low` is `w[3:0]`, any value, not interpreted (R92). -/
  | guard (low : BitVec 4)
  /-- EXT: every other word, passed whole to the external decoder (R93). -/
  | ext (word : Word)
  /-- COND_0, `0000`: Zero (41_condition_codes.md R141). -/
  | cond0
  /-- COND_1, `0001`: not Zero (R142). -/
  | cond1
  /-- COND_2, `0010`: Carry (R143). -/
  | cond2
  /-- COND_3, `0011`: not Carry (R144). -/
  | cond3
  /-- COND_4, `0100`: Negative (R145). -/
  | cond4
  /-- COND_5, `0101`: not Negative (R146). -/
  | cond5
  /-- COND_6, `0110`: Overflow (R147). -/
  | cond6
  /-- COND_7, `0111`: not Overflow (R148). -/
  | cond7
  /-- COND_8, `1000`: Carry and not Zero (R149). -/
  | cond8
  /-- COND_9, `1001`: the negation of COND_8 (R150). -/
  | cond9
  /-- COND_10, `1010`: Negative = Overflow (R151). -/
  | cond10
  /-- COND_11, `1011`: the negation of COND_10 (R152). -/
  | cond11
  /-- COND_12, `1100`: Negative = Overflow, and not Zero (R153). -/
  | cond12
  /-- COND_13, `1101`: the negation of COND_12 (R154). -/
  | cond13
  /-- COND_14, `1110`: never (R155). -/
  | cond14
  /-- COND_15, `1111`: always (R156). -/
  | cond15
  deriving DecidableEq, Repr

/-- What a row of the table is matched against (R101): a 32-bit instruction word for the formats GUARD and EXT, the
4-bit value `Decode(w).cond` for the format COND4. -/
inductive Code where
  | word (w : Word)
  | cond4 (c : CondCode)
  deriving DecidableEq, Repr

end Sys2Proof
end

