-- ==== Sys2Proof/Config.lean ====
section
/-! DEFINITION. The implementation parameters of 00_scope.md R9. Every operation of the machine takes a `Config`; the
machine the host runs takes the open ones from the opaque constants below, of which nothing can be proved but their
type. -/

namespace Sys2Proof

/-- Which of the two keyboard strategies is built (43_char_io.md R196). -/
inductive KbdStrategy where
  /-- A read of an empty queue gives 0 at once (R193). -/
  | buffered
  /-- A read waits until the environment supplies a byte (R197). -/
  | blocking
  deriving DecidableEq, Repr

/-- The parameters fixed at construction (R9). MEM_CFG and IMAGE are arguments of `State.resetWith`, since they act
at reset only (70_reset_and_hazards.md R251, R252); KBD_DEPTH is unbounded (decision D11). -/
structure Config where
  /-- `Decode`, a pure function of the word (30_encoding.md R96); the engine calls it for words of 16 or more only. -/
  decode : Word → Instruction
  /-- Bits 30..0 of `IO_ADDR`; bit 31 is set (20_memory.md R57). -/
  ioLow : BitVec 31
  /-- `KBD_STRATEGY` (R196). -/
  kbdStrategy : KbdStrategy
  /-- `VERBOSE` (40_engine_cycle.md R117). -/
  verbose : Bool

/-- OPEN (R9, decision D23): the external decoder, so the instruction set. Log 5. -/
opaque Config.openDecode : Word → Instruction

/-- OPEN (R9, decision D3): the low 31 bits of the sentinel address. Log 3. -/
opaque Config.openIoLow : BitVec 31

/-- OPEN (R9, decision D15): whether trace text is emitted. Log 17. -/
opaque Config.openVerbose : Bool

/-- OPEN (R9, decision D9): the configured memory size in words, so `MEM_CFG` is 4 times it: a multiple of 4, at most
`2^31`. Log 4. -/
opaque Config.openMemCfgWords : Fin (2 ^ 29 + 1)

/-- `IO_ADDR`: a 32-bit pattern with bit 31 set (20_memory.md R57). -/
def Config.ioAddr (c : Config) : Word := 1#1 ++ c.ioLow

end Sys2Proof
end

