-- ==== Sys2Proof/WellFormed.lean ====
section
/-! DEFINITION. Which terms are instructions of the machine, and which arguments a reset may be given. -/

namespace Sys2Proof

/-- The well-formed instructions: an EXT word is one the GUARD row did not match (30_encoding.md R93, R101). Every
GUARD operand and every condition code is legal (R92, R94). -/
def Instr.wf : Instr → Bool
  | .guard _ => true
  | .ext w => decide (16 ≤ w.toNat)
  | .cond0 => true
  | .cond1 => true
  | .cond2 => true
  | .cond3 => true
  | .cond4 => true
  | .cond5 => true
  | .cond6 => true
  | .cond7 => true
  | .cond8 => true
  | .cond9 => true
  | .cond10 => true
  | .cond11 => true
  | .cond12 => true
  | .cond13 => true
  | .cond14 => true
  | .cond15 => true

/-- What the host may supply at reset (00_scope.md R9): `MEM_CFG` a multiple of 4 and at most `2^31`, and an image of
`n` words with `4·n ≤ 2^31`. -/
def resetArgsWf (memCfg : Nat) (image : List Word) : Bool :=
  memCfg % 4 == 0 && decide (memCfg ≤ 2 ^ 31) && decide (4 * image.length ≤ 2 ^ 31)

end Sys2Proof
end

