-- ==== Sys2Proof/Decode.lean ====
section
/-! DEFINITION. Decoding and encoding: byte order (20_memory.md R55, R56), the two word classes (30_encoding.md R92,
R93), the sixteen condition codes (R94), and the opcode table as data (R101). -/

namespace Sys2Proof

/-- Four bytes as a word, the first the most significant (20_memory.md R55). -/
def joinBytes (b0 b1 b2 b3 : Byte) : Word := b0 ++ b1 ++ b2 ++ b3

/-- Byte `k` of a word in storage order: byte 0 is bits 31..24, byte 3 is bits 7..0 (20_memory.md R56). -/
def wordByte (w : Word) (k : Nat) : Byte := w.extractLsb' (8 * (3 - k)) 8

/-- A word's four bytes in storage order (R56). -/
def wordBytes (w : Word) : List Byte := [wordByte w 0, wordByte w 1, wordByte w 2, wordByte w 3]

/-- The class of an instruction word (R101, first matching row wins): below 16 it is a GUARD word (R92), else an EXT
word (R93). -/
def decodeWord (w : Word) : Instr :=
  if w.toNat < 16 then .guard (w.extractLsb' 0 4) else .ext w

/-- The row of a condition code (R94, R101). -/
def decodeCond (c : CondCode) : Instr :=
  match c.toNat with
  | 0 => .cond0
  | 1 => .cond1
  | 2 => .cond2
  | 3 => .cond3
  | 4 => .cond4
  | 5 => .cond5
  | 6 => .cond6
  | 7 => .cond7
  | 8 => .cond8
  | 9 => .cond9
  | 10 => .cond10
  | 11 => .cond11
  | 12 => .cond12
  | 13 => .cond13
  | 14 => .cond14
  | _ => .cond15

/-- The row a code selects. Total: the core has no illegal word (R93, R98). -/
def decode : Code → Instr
  | .word w => decodeWord w
  | .cond4 c => decodeCond c

/-- Why a run of bytes is no instruction. -/
inductive DecodeError where
  /-- An instruction is exactly one 32-bit word, four bytes (R90). -/
  | notOneWord
  deriving DecidableEq, Repr

/-- The instruction that four bytes hold, the byte at the lowest address first (R90). -/
def decodeBytes : List Byte → Except DecodeError Instr
  | [b0, b1, b2, b3] => .ok (decodeWord (joinBytes b0 b1 b2 b3))
  | _ => .error .notOneWord

/-- The code of an instruction: the word itself for the two word classes, the 4-bit value for a condition row. -/
def encode : Instr → Code
  | .guard low => .word (low.setWidth 32)
  | .ext w => .word w
  | .cond0 => .cond4 0b0000#4
  | .cond1 => .cond4 0b0001#4
  | .cond2 => .cond4 0b0010#4
  | .cond3 => .cond4 0b0011#4
  | .cond4 => .cond4 0b0100#4
  | .cond5 => .cond4 0b0101#4
  | .cond6 => .cond4 0b0110#4
  | .cond7 => .cond4 0b0111#4
  | .cond8 => .cond4 0b1000#4
  | .cond9 => .cond4 0b1001#4
  | .cond10 => .cond4 0b1010#4
  | .cond11 => .cond4 0b1011#4
  | .cond12 => .cond4 0b1100#4
  | .cond13 => .cond4 0b1101#4
  | .cond14 => .cond4 0b1110#4
  | .cond15 => .cond4 0b1111#4

/-- The bytes of an instruction as memory holds them; a condition row has no bytes of its own, since the code's place
in the word is inside the external decoder (R94). -/
def encodeBytes (i : Instr) : Option (List Byte) :=
  match encode i with
  | .word w => some (wordBytes w)
  | .cond4 _ => none

/-- What a row of the opcode table is matched by (R101). -/
inductive RowPattern where
  /-- A 32-bit word `w` with `w & mask = val`. -/
  | masked (mask val : Word)
  /-- The 4-bit condition code itself. -/
  | cond4 (c : CondCode)
  deriving DecidableEq, Repr

/-- Whether a code matches a row's pattern. -/
def RowPattern.accepts : RowPattern → Code → Bool
  | .masked mask val, .word w => w &&& mask == val
  | .cond4 c, .cond4 d => c == d
  | .masked _ _, .cond4 _ => false
  | .cond4 _, .word _ => false

/-- The two rows of instruction words, in priority order (R101). -/
def wordRows : List (String × RowPattern) :=
  [("GUARD", .masked 0xFFFFFFF0#32 0#32), ("EXT", .masked 0#32 0#32)]

/-- The rows of the codes whose selector is 0 to 3 (R141 to R148). -/
def condRowsLow : List (String × RowPattern) :=
  [("COND_0", .cond4 0b0000#4), ("COND_1", .cond4 0b0001#4), ("COND_2", .cond4 0b0010#4),
   ("COND_3", .cond4 0b0011#4), ("COND_4", .cond4 0b0100#4), ("COND_5", .cond4 0b0101#4),
   ("COND_6", .cond4 0b0110#4), ("COND_7", .cond4 0b0111#4)]

/-- The rows of the codes whose selector is 4 to 7 (R149 to R156). -/
def condRowsHigh : List (String × RowPattern) :=
  [("COND_8", .cond4 0b1000#4), ("COND_9", .cond4 0b1001#4), ("COND_10", .cond4 0b1010#4),
   ("COND_11", .cond4 0b1011#4), ("COND_12", .cond4 0b1100#4), ("COND_13", .cond4 0b1101#4),
   ("COND_14", .cond4 0b1110#4), ("COND_15", .cond4 0b1111#4)]

/-- spec/opcode_table.json as data, in priority order: the first matching row wins (R101). -/
def opcodeTable : List (String × RowPattern) := wordRows ++ condRowsLow ++ condRowsHigh

/-- The mnemonic the table gives a code. -/
def tableMnemonic (code : Code) : Option String :=
  (opcodeTable.find? fun row => row.2.accepts code).map (·.1)

/-- An instruction's mnemonic, as spec/opcode_table.json spells it. -/
def Instr.mnemonic : Instr → String
  | .guard _ => "GUARD"
  | .ext _ => "EXT"
  | .cond0 => "COND_0"
  | .cond1 => "COND_1"
  | .cond2 => "COND_2"
  | .cond3 => "COND_3"
  | .cond4 => "COND_4"
  | .cond5 => "COND_5"
  | .cond6 => "COND_6"
  | .cond7 => "COND_7"
  | .cond8 => "COND_8"
  | .cond9 => "COND_9"
  | .cond10 => "COND_10"
  | .cond11 => "COND_11"
  | .cond12 => "COND_12"
  | .cond13 => "COND_13"
  | .cond14 => "COND_14"
  | .cond15 => "COND_15"

/-- The instruction the decoder reads from bits numbered as spec/opcode_table.json numbers them. A row of at most 8
bits is a condition row, whose 4 bits are a condition code; a wider one is an instruction word, laid out big-endian
and given to the byte decoder. Log 21. -/
def decodeTableWord (nbits w : Nat) : Option Instr :=
  if nbits ≤ 8 then
    if w < 16 then some (decodeCond (BitVec.ofNat 4 w)) else none
  else if nbits ≤ 32 ∧ w < 2 ^ 32 then
    (decodeBytes (wordBytes (BitVec.ofNat 32 w))).toOption
  else none

end Sys2Proof
end

