-- ==== Sys2Proof/Machine/Memory.lean ====
section
/-! DEFINITION. Memory: a byte sequence of a fixed length (10_state.md R33, R34), held as its length and the list of
its nonzero bytes in one canonical form; the validity test (20_memory.md R54) and the two big-endian word accesses
(R55, R56). -/

namespace Sys2Proof.Machine

/-- What an address that is not listed reads as: memory is "zero-initialized" (70_reset_and_hazards.md R252). -/
def unlisted : Byte := 0#8

/-- `memory` (10_state.md R33): its length `MEM_SIZE` in bytes (R34) and its bytes other than `unlisted`, by rising
address. -/
structure Memory where
  size : Nat
  cells : List Host.Cell
  deriving DecidableEq, Repr

/-- The byte a cell list gives an address. -/
def lookupCell (a : Nat) : List Host.Cell → Byte
  | [] => unlisted
  | (k, b) :: rest => if k = a then b else lookupCell a rest

/-- A cell list with the byte at one address replaced, in canonical form: `unlisted` is never listed. -/
def storeCell (a : Nat) (b : Byte) : List Host.Cell → List Host.Cell
  | [] => if b = unlisted then [] else [(a, b)]
  | (k, v) :: rest =>
    if a < k then (if b = unlisted then (k, v) :: rest else (a, b) :: (k, v) :: rest)
    else if a = k then (if b = unlisted then rest else (a, b) :: rest)
    else (k, v) :: storeCell a b rest

/-- The canonical form of a cell list from address `lo` up to `hi`: addresses strictly rising, none listed as
`unlisted`. -/
def canonicalCells (hi : Nat) : Nat → List Host.Cell → Bool
  | _, [] => true
  | lo, (k, v) :: rest => decide (lo ≤ k) && decide (k < hi) && v != unlisted && canonicalCells hi (k + 1) rest

/-- A well-formed memory: canonical, every listed byte inside it, its length a multiple of 4 and at most `2^31`
(10_state.md R34, R40(b)). -/
def Memory.wf (m : Memory) : Bool :=
  canonicalCells m.size 0 m.cells && m.size % 4 == 0 && decide (m.size ≤ 2 ^ 31)

/-- `mem[a]`, the byte at address `a` (10_state.md R33). -/
def Memory.byte (m : Memory) (a : Nat) : Byte := lookupCell a m.cells

/-- `mem[a] <- b`; the length of memory never changes (10_state.md R34). -/
def Memory.setByte (m : Memory) (a : Nat) (b : Byte) : Memory := { m with cells := storeCell a b m.cells }

/-- `Valid(addr)` (20_memory.md R54): with `a = signed32(addr)`, `a % 4 = 0`, `0 <= a` and `a + 3 < MEM_SIZE`. The
sign of the pattern is its bit 31, and a pattern without it is its own unsigned value, so no comparison wraps. -/
def Memory.valid (m : Memory) (addr : Word) : Bool :=
  !addr.msb && addr.toNat % 4 == 0 && decide (addr.toNat + 3 < m.size)

/-- The word at address `a`, big-endian (20_memory.md R55). -/
def Memory.readWord (m : Memory) (a : Nat) : Word :=
  joinBytes (m.byte a) (m.byte (a + 1)) (m.byte (a + 2)) (m.byte (a + 3))

/-- The word `v` stored at address `a`, big-endian (20_memory.md R56). -/
def Memory.writeWord (m : Memory) (a : Nat) (v : Word) : Memory :=
  (((m.setByte a (wordByte v 0)).setByte (a + 1) (wordByte v 1)).setByte (a + 2) (wordByte v 2)).setByte
    (a + 3) (wordByte v 3)

/-- All-zero memory of a given length (70_reset_and_hazards.md R252). -/
def Memory.zeroed (size : Nat) : Memory := { size, cells := [] }

/-- The image's words stored in order from address `a` up (70_reset_and_hazards.md R252). -/
def Memory.load (m : Memory) (a : Nat) : List Word → Memory
  | [] => m
  | w :: ws => (m.writeWord a w).load (a + 4) ws

/-- The larger of a size and what is needed: memory "is grown (never shrunk) to exactly fit"
(70_reset_and_hazards.md R251). -/
def grownSize (size need : Nat) : Nat := size - need + need

end Sys2Proof.Machine
end

