-- ==== Sys2Proof/Machine/State.lean ====
section
/-! DEFINITION. The state of the machine: the five members of MachineState (10_state.md R20), the state beside it
(R36, R37, R38), and the model's own two fields; the outcomes' reasons; and reset (70_reset_and_hazards.md R250). -/

namespace Sys2Proof.Machine

/-- The four condition flags, a record of four named booleans (10_state.md R28). -/
structure Flags where
  n : Bool
  z : Bool
  c : Bool
  o : Bool
  deriving DecidableEq, Repr

/-- The cause a diagnostic event carries, and all it carries (60_exceptions.md R210, R229). -/
inductive Diag where
  | addressFault
  | reservedLowValueGuard
  | externalInterrupt
  | imageTooLarge
  deriving DecidableEq, Repr

/-- The one action of each environment agent (00_scope.md R8). -/
inductive EnvEvent where
  /-- The keyboard producer appends a byte to `kbd` (43_char_io.md R195). -/
  | key (b : Byte)
  /-- The cancellation request is raised (60_exceptions.md R216). -/
  | stop
  deriving DecidableEq, Repr

/-- What an operation of a behaviour answered it. -/
inductive Answer where
  | word (v : Word)
  | flag (b : Bool)
  deriving DecidableEq, Repr

/-- Where a cycle is held that waits in a blocking keyboard read (43_char_io.md R197, 60_exceptions.md R227). -/
inductive Waiting where
  /-- The read is the fetch. -/
  | fetch
  /-- The read is an operation of the behaviour of `cur`; `answers` are the answers it has had before it, oldest
  first, and say where in the procedure it stands. -/
  | behaviour (answers : List Answer)
  deriving DecidableEq, Repr

/-- The state. The first five fields are MachineState (10_state.md R20). -/
structure State where
  /-- The sixteen registers (R21); slot 0 is never read or written, slot 15 is the program counter (R25). -/
  regs : Vector Word 16
  /-- `memory` and its length `MEM_SIZE` (R33, R34). -/
  mem : Memory
  /-- N, Z, C, O (R28). -/
  flags : Flags
  /-- `halted` (R30). -/
  halted : Bool
  /-- `cur` (R31): the word whose Instruction record was decoded last, none before the first decode. Log 6. -/
  cur : Option Word
  /-- `kbd`, the keyboard queue, first in first out (R36). -/
  kbd : List Byte
  /-- `stop_pending` (R37). -/
  stopPending : Bool
  /-- `out`, the bytes emitted, oldest first (R38). -/
  out : List Byte
  /-- `diag`, the diagnostic events, oldest first (R38). -/
  diag : List Diag
  /-- `trace`, the trace texts, oldest first (R38). -/
  trace : List String
  /-- The model's own: what the environment will do, a batch of events for each coming point at which it may act
  (20_memory.md R70). DESIGN CHOICE: finitely many batches, so finitely many appends in one run. Log 15. -/
  env : List (List EnvEvent)
  /-- The model's own: the cycle in progress that a blocking keyboard read holds, if one does. Log 13. -/
  wait : Option Waiting
  deriving DecidableEq, Repr

/-- The reasons the machine could stop without a next state: NONE. Every event that stops this machine leaves a state
the spec describes (60_exceptions.md R219, R221), so each is a next state, and nobody raises a fault. Log 19. -/
inductive Fault where
  deriving DecidableEq, Repr

/-- The reasons the model could give an instruction no meaning. -/
inductive Refusal where
  /-- An arm of exec without a meaning yet; raised by exec alone, and safe: the model stops where the machine goes on.
  No arm is left that raises it. -/
  | notModelled (mnemonic : String)
  deriving DecidableEq, Repr

/-- Reset and load (70_reset_and_hazards.md R250): size (R251), load (R252), register 14 (R253), the rest (R254,
10_state.md R39). -/
def State.resetWith (memCfg : Nat) (image : List Word) : State :=
  let size := max memCfg (4 * image.length)
  { regs := (Vector.replicate 16 0#32).set 14 (BitVec.ofNat 32 size)
    mem := (Memory.zeroed size).load 0 image
    flags := { n := false, z := false, c := false, o := false }
    halted := false
    cur := none
    kbd := []
    stopPending := false
    out := []
    diag := if memCfg < 4 * image.length then [.imageTooLarge] else []
    trace := []
    env := []
    wait := none }

/-- The machine right after reset: the open `MEM_CFG`, no program placed. Log 4. -/
def State.reset : State := State.resetWith (4 * Config.openMemCfgWords.val) []

end Sys2Proof.Machine
end

