-- ==== Sys2Proof/Machine/Operands.lean ====
section
/-! DEFINITION. The operand forms of the seven operations: a register index (10_state.md R21, R22), a flag name
(R28), a bus address (20_memory.md R51, R57), and the program counter, which is register 15 (R25). -/

namespace Sys2Proof.Machine

/-- `x[i]` (10_state.md R21): index 0 always yields 0, any other the stored value. -/
def State.reg (s : State) (i : RegIndex) : Word :=
  if i = 0#4 then 0#32 else s.regs[i.toNat]'i.isLt

/-- `x[i] <- v` (10_state.md R22): nothing when `i` is 0, else a store. -/
def State.setReg (s : State) (i : RegIndex) (v : Word) : State :=
  if i = 0#4 then s else { s with regs := s.regs.set i.toNat v i.isLt }

/-- `pc`, the same storage as `x[15]` (10_state.md R25). -/
def State.pc (s : State) : Word := s.reg 15#4

/-- `pc <- target`, identical to `x[15] <- target` (10_state.md R25). -/
def State.setPc (s : State) (target : Word) : State := s.setReg 15#4 target

/-- `F.f` (10_state.md R28). -/
def Flags.get (fl : Flags) : Flag → Bool
  | .N => fl.n
  | .Z => fl.z
  | .C => fl.c
  | .O => fl.o

/-- `F.f <- b`; the other three flags keep their values (42_execute_interface.md R174). -/
def Flags.set (fl : Flags) (f : Flag) (b : Bool) : Flags :=
  match f with
  | .N => { fl with n := b }
  | .Z => { fl with z := b }
  | .C => { fl with c := b }
  | .O => { fl with o := b }

/-- `FlagSet(f, b)` on the state (42_execute_interface.md R174). -/
def State.setFlag (s : State) (f : Flag) (b : Bool) : State := { s with flags := s.flags.set f b }

/-- `addr = IO_ADDR` (20_memory.md R57): only the exact pattern, tested before alignment and bounds. -/
def isIoAddr (c : Config) (addr : Word) : Bool := addr.msb && addr.setWidth 31 == c.ioLow

end Sys2Proof.Machine
end

