-- ==== Sys2Proof/Machine/Flags.lean ====
section
/-! DEFINITION. The condition evaluator (41_condition_codes.md R140) and its base predicates (R157). The core computes
no flag of its own: flags are written by behaviours alone (10_state.md R29). -/

namespace Sys2Proof.Machine

/-- `Base(sel, F)` for the selector 0..7 (R157). -/
def condBase (sel : BitVec 3) (fl : Flags) : Bool :=
  match sel.toNat with
  | 0 => fl.z
  | 1 => fl.c
  | 2 => fl.n
  | 3 => fl.o
  | 4 => fl.c && !fl.z
  | 5 => fl.n == fl.o
  | 6 => (fl.n == fl.o) && !fl.z
  | _ => false

/-- `CondPass(c, F)` (R140): the base predicate of `c[3:1]`, negated when `c[0]` is set. -/
def condPass (code : CondCode) (fl : Flags) : Bool :=
  let b := condBase (code.extractLsb' 1 3) fl
  if code.getLsbD 0 then !b else b

end Sys2Proof.Machine
end

