-- ==== Sys2Proof/Machine/Ops.lean ====
section
/-! DEFINITION. The named operations: diagnostics and the halting events (60_exceptions.md), the character device
(43_char_io.md), the two bus operations (20_memory.md R52, R53), the trace (40_engine_cycle.md R117), and the
environment's turn (20_memory.md R70, 60_exceptions.md R216). -/

namespace Sys2Proof.Machine

/-- The parameters of the machine the host runs: the open ones opaque, the keyboard buffered (00_scope.md R9). -/
def params : Config :=
  { decode := Config.openDecode
    ioLow := Config.openIoLow
    kbdStrategy := .buffered
    verbose := Config.openVerbose }

/-- The Instruction record `cur` holds (10_state.md R31). -/
def State.currentInstruction (c : Config) (s : State) : Option Instruction := s.cur.map c.decode

/-- TAKING A HALTING EVENT, the whole of it (60_exceptions.md R219): `Diag(cause)`, absent for a requested halt, and
`halted <- true`. No state is saved, nothing transfers control, and there is no return (R220). -/
def haltWith (cause : Option Diag) (s : State) : State :=
  { s with diag := s.diag ++ cause.toList, halted := true }

/-- `raise AddressFault` (60_exceptions.md R211), as far as it changes state; that the access and the rest of the
cycle are abandoned is said where it is raised. -/
def raiseAddressFault (s : State) : State := haltWith (some .addressFault) s

/-- `CharOut(b)` (43_char_io.md R191): append to `out`; never blocks, never fails. -/
def charOut (b : Byte) (s : State) : State := { s with out := s.out ++ [b] }

/-- `Trace(text)` (40_engine_cycle.md R117). -/
def traceText (c : Config) (text : String) (s : State) : State :=
  if c.verbose then { s with trace := s.trace ++ [text] } else s

/-- `KbdRead()` (43_char_io.md R193): the front of the queue is taken; an empty queue gives 0 at once. Under the
blocking strategy (R197) there is no answer (`none`) until the environment supplies a byte. -/
def kbdRead (c : Config) (s : State) : Option (Byte × State) :=
  match s.kbd with
  | b :: rest => some (b, { s with kbd := rest })
  | [] =>
    match c.kbdStrategy with
    | .buffered => some (0#8, s)
    | .blocking => none

/-- How a bus access ends. -/
inductive Access (α : Type) where
  /-- It completes, with a result. -/
  | completed (v : α) (s : State)
  /-- It raised AddressFault: no result, the caller is abandoned (20_memory.md R60). -/
  | faulted (s : State)
  /-- It waits in a blocking keyboard read (43_char_io.md R197); nothing has changed. -/
  | waits
  deriving DecidableEq, Repr

/-- `MemRead(addr, 4)` (20_memory.md R52): the sentinel first, then validity, then the big-endian word. -/
def memRead (c : Config) (addr : Word) (s : State) : Access Word :=
  if isIoAddr c addr then
    match kbdRead c s with
    | some (b, t) => .completed (b.setWidth 32) t
    | none => .waits
  else if s.mem.valid addr then .completed (s.mem.readWord addr.toNat) s
  else .faulted (raiseAddressFault s)

/-- `MemWrite(addr, 4, v)` (20_memory.md R53): the sentinel first, then validity, then the big-endian store. -/
def memWrite (c : Config) (addr v : Word) (s : State) : Access Unit :=
  if isIoAddr c addr then .completed () (charOut (v.extractLsb' 0 8) s)
  else if s.mem.valid addr then .completed () { s with mem := s.mem.writeWord addr.toNat v }
  else .faulted (raiseAddressFault s)

/-- The bytes the keyboard producer appends in a batch of events, in order. -/
def batchKeys : List EnvEvent → List Byte
  | [] => []
  | .key b :: es => b :: batchKeys es
  | .stop :: es => batchKeys es

/-- Whether the cancellation request is raised in a batch; once or more has the effect of once
(70_reset_and_hazards.md R260). -/
def batchStops : List EnvEvent → Bool
  | [] => false
  | .key _ :: es => batchStops es
  | .stop :: _ => true

/-- A point at which the environment may act: the next batch happens. Keys are appended (43_char_io.md R195), a
request is latched (60_exceptions.md R216); neither touches MachineState (40_engine_cycle.md R125).
With no batch left the environment is silent. DESIGN CHOICE (log 15): the schedule is a finite list, so one run sees
finitely many appends, where R70 sets no bound. -/
def envTurn (s : State) : State :=
  match s.env with
  | [] => s
  | batch :: later =>
    { s with kbd := s.kbd ++ batchKeys batch
             stopPending := s.stopPending || batchStops batch
             env := later }

end Sys2Proof.Machine
end

