-- ==== Sys2Proof/Machine/Behaviour.lean ====
section
/-! DEFINITION. Running an execute behaviour (42_execute_interface.md R170 to R180), the execute step of the cycle
(40_engine_cycle.md R116), and where a waiting behaviour goes on (43_char_io.md R197). -/

namespace Sys2Proof

open Machine in
/-- What is left of a behaviour that waits after it has had some answers: the read that waits and all that follows it.
Every read before it has its answer in the list; the writes on the way to it are behind it. -/
def Behaviour.afterAnswers : Behaviour → List Answer → Behaviour
  | .done, _ => .done
  | .regGet i k, answers =>
    match answers with
    | .word v :: rest => Behaviour.afterAnswers (k v) rest
    | _ => .regGet i k
  | .regSet _ _ k, answers => Behaviour.afterAnswers k answers
  | .flagGet f k, answers =>
    match answers with
    | .flag b :: rest => Behaviour.afterAnswers (k b) rest
    | _ => .flagGet f k
  | .flagSet _ _ k, answers => Behaviour.afterAnswers k answers
  | .busRead a k, answers =>
    match answers with
    | .word v :: rest => Behaviour.afterAnswers (k v) rest
    | _ => .busRead a k
  | .busWrite _ _ k, answers => Behaviour.afterAnswers k answers
  | .haltRequest, _ => .haltRequest

namespace Machine

/-- Run a behaviour to its end, to its first faulting access (R178), or until a blocking read holds it. `answers` are
the answers the behaviour has had so far. The environment may act before each operation (20_memory.md R70). -/
def runBehaviour (c : Config) : Behaviour → List Answer → State → State
  | .done, _, s => s
  | .regGet i k, answers, s =>
    let t := envTurn s
    runBehaviour c (k (t.reg i)) (answers ++ [.word (t.reg i)]) t
  | .regSet i v k, answers, s => runBehaviour c k answers ((envTurn s).setReg i v)
  | .flagGet f k, answers, s =>
    let t := envTurn s
    runBehaviour c (k (t.flags.get f)) (answers ++ [.flag (t.flags.get f)]) t
  | .flagSet f b k, answers, s => runBehaviour c k answers ((envTurn s).setFlag f b)
  | .busRead addr k, answers, s =>
    match memRead c addr (envTurn s) with
    | .completed v t => runBehaviour c (k v) (answers ++ [.word v]) t
    | .faulted t => t
    | .waits => { envTurn s with wait := some (.behaviour answers) }
  | .busWrite addr v k, answers, s =>
    match memWrite c addr v (envTurn s) with
    | .completed _ t => runBehaviour c k answers t
    | .faulted t => t
    | .waits => { envTurn s with wait := some (.behaviour answers) }
  | .haltRequest, _, s => haltWith none (envTurn s)

/-- One of the seven operations with its operands (R171 to R177). -/
inductive Op where
  | regGet (i : RegIndex)
  | regSet (i : RegIndex) (v : Word)
  | flagGet (f : Flag)
  | flagSet (f : Flag) (b : Bool)
  | busRead (addr : Word)
  | busWrite (addr : Word) (v : Word)
  | haltRequest
  deriving DecidableEq, Repr

/-- The operations a behaviour performs when it runs from a state, oldest first; the last may be an access that
faulted or that waits. `runBehaviour` says what they do; this list is what statements about frames speak of. -/
def performedOps (c : Config) : Behaviour → State → List Op
  | .done, _ => []
  | .regGet i k, s => .regGet i :: performedOps c (k ((envTurn s).reg i)) (envTurn s)
  | .regSet i v k, s => .regSet i v :: performedOps c k ((envTurn s).setReg i v)
  | .flagGet f k, s => .flagGet f :: performedOps c (k ((envTurn s).flags.get f)) (envTurn s)
  | .flagSet f b k, s => .flagSet f b :: performedOps c k ((envTurn s).setFlag f b)
  | .busRead addr k, s =>
    .busRead addr ::
      match memRead c addr (envTurn s) with
      | .completed v t => performedOps c (k v) t
      | .faulted _ => []
      | .waits => []
  | .busWrite addr v k, s =>
    .busWrite addr v ::
      match memWrite c addr v (envTurn s) with
      | .completed _ t => performedOps c k t
      | .faulted _ => []
      | .waits => []
  | .haltRequest, _ => [.haltRequest]

/-- Step 6 of the cycle for the record of word `w` (R116): the trace text, then the behaviour. -/
def executeWord (c : Config) (w : Word) (s : State) : State :=
  runBehaviour c (c.decode w).exec [] (traceText c (c.decode w).text s)

/-- Step 6 for the instruction `cur` holds; with no instruction in `cur` there is nothing to run. Log 24. -/
def executeCurrent (c : Config) (s : State) : State :=
  match s.cur with
  | some w => executeWord c w s
  | none => s

/-- Steps 5 and 6 of the cycle for an instruction whose condition code is `code` (40_engine_cycle.md R115, R116). -/
def testAndExecute (c : Config) (code : CondCode) (s : State) : State :=
  if condPass code s.flags then executeCurrent c s else s

/-- A waiting behaviour goes on from the read that holds it (43_char_io.md R197). -/
def resumeBehaviour (c : Config) (answers : List Answer) (s : State) : State :=
  match s.cur with
  | some w => runBehaviour c ((c.decode w).exec.afterAnswers answers) answers s
  | none => s

end Machine

end Sys2Proof
end

