-- ==== Sys2Proof/Machine/Cond.lean ====
section
/-! DEFINITION. The meanings of the sixteen condition rows (41_condition_codes.md R141 to R156): steps 5 and 6 of the
cycle for the instruction in `cur`, gated by the row's code (40_engine_cycle.md R115, R116). Log 20. -/

namespace Sys2Proof.Machine

/-- Code 0: passes when Zero (R141). -/
def execCond0 (s : State) : Host.Outcome State Fault Refusal := .next (testAndExecute params 0b0000#4 s)

/-- Code 1: passes when not Zero (R142). -/
def execCond1 (s : State) : Host.Outcome State Fault Refusal := .next (testAndExecute params 0b0001#4 s)

/-- Code 2: passes when Carry (R143). -/
def execCond2 (s : State) : Host.Outcome State Fault Refusal := .next (testAndExecute params 0b0010#4 s)

/-- Code 3: passes when not Carry (R144). -/
def execCond3 (s : State) : Host.Outcome State Fault Refusal := .next (testAndExecute params 0b0011#4 s)

/-- Code 4: passes when Negative (R145). -/
def execCond4 (s : State) : Host.Outcome State Fault Refusal := .next (testAndExecute params 0b0100#4 s)

/-- Code 5: passes when not Negative (R146). -/
def execCond5 (s : State) : Host.Outcome State Fault Refusal := .next (testAndExecute params 0b0101#4 s)

/-- Code 6: passes when Overflow (R147). -/
def execCond6 (s : State) : Host.Outcome State Fault Refusal := .next (testAndExecute params 0b0110#4 s)

/-- Code 7: passes when not Overflow (R148). -/
def execCond7 (s : State) : Host.Outcome State Fault Refusal := .next (testAndExecute params 0b0111#4 s)

/-- Code 8: passes when Carry and not Zero (R149). -/
def execCond8 (s : State) : Host.Outcome State Fault Refusal := .next (testAndExecute params 0b1000#4 s)

/-- Code 9: passes when code 8 does not (R150). -/
def execCond9 (s : State) : Host.Outcome State Fault Refusal := .next (testAndExecute params 0b1001#4 s)

/-- Code 10: passes when Negative = Overflow (R151). -/
def execCond10 (s : State) : Host.Outcome State Fault Refusal := .next (testAndExecute params 0b1010#4 s)

/-- Code 11: passes when code 10 does not (R152). -/
def execCond11 (s : State) : Host.Outcome State Fault Refusal := .next (testAndExecute params 0b1011#4 s)

/-- Code 12: passes when Negative = Overflow and not Zero (R153). -/
def execCond12 (s : State) : Host.Outcome State Fault Refusal := .next (testAndExecute params 0b1100#4 s)

/-- Code 13: passes when code 12 does not (R154). -/
def execCond13 (s : State) : Host.Outcome State Fault Refusal := .next (testAndExecute params 0b1101#4 s)

/-- Code 14: never passes (R155, R158). -/
def execCond14 (s : State) : Host.Outcome State Fault Refusal := .next (testAndExecute params 0b1110#4 s)

/-- Code 15: always passes (R156, R158). -/
def execCond15 (s : State) : Host.Outcome State Fault Refusal := .next (testAndExecute params 0b1111#4 s)

end Sys2Proof.Machine
end

