-- ==== Sys2Proof/Machine/Words.lean ====
section
/-! DEFINITION. The meanings of the two word classes (40_engine_cycle.md R119, R120), the cycle boundary and the fetch
(R110, R111, R118), and one pass of the engine loop as R110 writes it, for any parameters. -/

namespace Sys2Proof.Machine

/-- A GUARD word (R112, R119): `Diag(ReservedLowValueGuard)`, `halted <- true`, and nothing else. Its low bits are not
interpreted (30_encoding.md R92). -/
def execGuard (_low : BitVec 4) (s : State) : Host.Outcome State Fault Refusal :=
  .next (haltWith (some .reservedLowValueGuard) s)

/-- Step 3, the advance (R113): `pc <- (pc + 4) mod 2^32`. -/
def advance (s : State) : State := s.setPc (s.pc + 4#32)

/-- Step 4, decode (R114): `cur` takes the record of the word. -/
def setCurrent (w : Word) (s : State) : State := { s with cur := some w }

/-- An EXT word (R120): advance, decode, then test and execute under the decoded record's condition code, which is
what the row of that code does (Laws/Step.lean, `exec_decodeCond`). -/
def execExt (w : Word) (s : State) : Host.Outcome State Fault Refusal :=
  .next (testAndExecute params (params.decode w).cond (setCurrent w (advance s)))

/-- What a step finds before it has an instruction to run. -/
inductive Boundary where
  /-- There is none: the step ends in this state. -/
  | settled (s : State)
  /-- A word was fetched. -/
  | fetched (w : Word) (s : State)
  deriving DecidableEq, Repr

/-- Step 1, the fetch, an ordinary bus read at `pc` (R111, 20_memory.md R61). -/
def fetch (c : Config) (s : State) : Boundary :=
  match memRead c s.pc s with
  | .completed w t => .fetched w t
  | .faulted t => .settled t
  | .waits => .settled { s with wait := some .fetch }

/-- What stands before the word of a cycle (R110): the environment's turn; a halted machine takes no further step
(R118); a waiting cycle goes on, and no request is looked at (43_char_io.md R197); at a boundary a pending request
ends the run before the fetch (60_exceptions.md R216, R218). -/
def boundary (c : Config) (s : State) : Boundary :=
  let t := envTurn s
  if t.halted then .settled t
  else
    match t.wait with
    | some (.behaviour answers) => .settled (resumeBehaviour c answers { t with wait := none })
    | some .fetch => fetch c { t with wait := none }
    | none => if t.stopPending then .settled (haltWith (some .externalInterrupt) t) else fetch c t

/-- Steps 2 to 6 of the cycle for a fetched word, as R110 writes them. -/
def cycleWord (c : Config) (w : Word) (s : State) : State :=
  if w.toNat < 16 then haltWith (some .reservedLowValueGuard) s
  else
    let t := setCurrent w (advance s)
    if condPass (c.decode w).cond t.flags then executeWord c w t else t

/-- One pass of the engine loop for any parameters (R110). `step` is this with the machine's own
(Laws/Step.lean, `step_eq_engineLoop`). -/
def engineLoop (c : Config) (s : State) : State :=
  match boundary c s with
  | .settled t => t
  | .fetched w t => cycleWord c w t

/-- The address a word is placed at so that the next step fetches it: `pc` where a fetch there can succeed, else 0. -/
def fetchHome (s : State) : Word := if !s.pc.msb && s.pc.toNat % 4 == 0 then s.pc else 0#32

end Sys2Proof.Machine
end

