-- ==== Sys2Proof/Machine/Dispatch.lean ====
section
/-! DEFINITION. One arm per row of spec/opcode_table.json. -/

namespace Sys2Proof.Machine

def exec (i : Instr) (s : State) : Host.Outcome State Fault Refusal :=
  match i with
  | .guard low => Sys2Proof.Machine.execGuard low s
  | .ext w => Sys2Proof.Machine.execExt w s
  | .cond0 => Sys2Proof.Machine.execCond0 s
  | .cond1 => Sys2Proof.Machine.execCond1 s
  | .cond2 => Sys2Proof.Machine.execCond2 s
  | .cond3 => Sys2Proof.Machine.execCond3 s
  | .cond4 => Sys2Proof.Machine.execCond4 s
  | .cond5 => Sys2Proof.Machine.execCond5 s
  | .cond6 => Sys2Proof.Machine.execCond6 s
  | .cond7 => Sys2Proof.Machine.execCond7 s
  | .cond8 => Sys2Proof.Machine.execCond8 s
  | .cond9 => Sys2Proof.Machine.execCond9 s
  | .cond10 => Sys2Proof.Machine.execCond10 s
  | .cond11 => Sys2Proof.Machine.execCond11 s
  | .cond12 => Sys2Proof.Machine.execCond12 s
  | .cond13 => Sys2Proof.Machine.execCond13 s
  | .cond14 => Sys2Proof.Machine.execCond14 s
  | .cond15 => Sys2Proof.Machine.execCond15 s

end Sys2Proof.Machine
end

