-- ==== Sys2Proof/Machine/Step.lean ====
section
/-! DEFINITION. One step of the machine: one pass of the engine loop (40_engine_cycle.md R110), and the placing of a
word where the next step fetches it. -/

namespace Sys2Proof.Machine

/-- One step. A word that was fetched runs as the instruction it decodes to. -/
def step (s : State) : Host.Outcome State Fault Refusal :=
  match Sys2Proof.Machine.boundary Sys2Proof.Machine.params s with
  | .settled t => .next t
  | .fetched w t => Sys2Proof.Machine.exec (Sys2Proof.decodeWord w) t

/-- The state with a word placed where the next step fetches it, standing for the host's load of a program (log 4,
log 21): memory reaches at least to the word's end, the machine is Running at a boundary, and the environment is idle
for that one point. `nbits` adds nothing: the bits above it are 0. -/
def State.withFetchWord (s : State) (_nbits w : Nat) : State :=
  let a := Sys2Proof.Machine.fetchHome s
  { s.setPc a with
    mem := { s.mem with size := Sys2Proof.Machine.grownSize s.mem.size (a.toNat + 4) }.writeWord a.toNat
      (BitVec.ofNat 32 w)
    halted := false
    stopPending := false
    env := [] :: s.env
    wait := none }

end Sys2Proof.Machine
end

