-- ==== Sys2Proof/Safety.lean ====
section
/-! DEFINITION. What counts as a good state and a safe run, and the views of a state that statements speak of. -/

namespace Sys2Proof.Machine

/-- The halting events a run has reported: every diagnostic but the load-time warning (60_exceptions.md R210,
R218). -/
def State.haltEvents (s : State) : List Diag := s.diag.filter (· ≠ .imageTooLarge)

/-- The invariant of the machine: what every state a run passes through has in common. -/
structure State.Inv (s : State) : Prop where
  /-- Register 0's slot holds 0 (10_state.md R40(a)). -/
  zeroSlot : s.regs[0] = 0#32
  /-- Memory is canonical, its length a multiple of 4 and at most `2^31` (R34, R40(b)). -/
  memWf : s.mem.wf = true
  /-- What was decoded was an EXT word (30_encoding.md R96). -/
  curExt : ∀ w, s.cur = some w → 16 ≤ w.toNat
  /-- No cycle is held up: the keyboard strategy is the buffered one (42_execute_interface.md R180). -/
  noWait : s.wait = none
  /-- At most one halting event is reported (60_exceptions.md R218). -/
  oneHalt : s.haltEvents.length ≤ 1
  /-- A running machine has reported none. -/
  runningClean : s.halted = false → s.haltEvents = []

/-- A run that stopped because its program asked it to, reporting no fault, guard or interrupt
(42_execute_interface.md R177, 70_reset_and_hazards.md R256(d)). -/
def State.stoppedByRequest (s : State) : Bool := s.halted && s.haltEvents.isEmpty

/-- A run in which no access has faulted. -/
def State.noAddressFault (s : State) : Bool := !s.diag.contains .addressFault

/-- The characters the machine may still be given: what is queued, then what the keyboard producer will append. -/
def State.keysToCome (s : State) : List Byte := s.kbd ++ (s.env.map batchKeys).flatten

/-- The state without what the core writes for an observer only: the output streams (10_state.md R38) and `cur`
(R31). -/
def State.unobserved (s : State) : State := { s with out := [], diag := [], trace := [], cur := none }

/-- Whether an operation stores to the byte at address `x`: it is a bus write of an aligned word in memory that holds
`x`, not at the sentinel (20_memory.md R53, R56). -/
def Op.storesTo (c : Config) (m : Memory) (x : Nat) : Op → Bool
  | .busWrite addr _ => !isIoAddr c addr && m.valid addr && decide (addr.toNat ≤ x) && decide (x < addr.toNat + 4)
  | .regGet _ => false
  | .regSet _ _ => false
  | .flagGet _ => false
  | .flagSet _ _ => false
  | .busRead _ => false
  | .haltRequest => false

/-- The bytes an operation emits: a bus write at the sentinel emits one (20_memory.md R59). -/
def Op.emits (c : Config) : Op → List Byte
  | .busWrite addr v => if isIoAddr c addr then [v.extractLsb' 0 8] else []
  | .regGet _ => []
  | .regSet _ _ => []
  | .flagGet _ => []
  | .flagSet _ _ => []
  | .busRead _ => []
  | .haltRequest => []

/-- A completed read at the sentinel: whether a character was pending, and the word it answered (20_memory.md R58). -/
structure SentinelRead where
  queued : Bool
  answer : Word
  deriving DecidableEq, Repr

/-- The record of a completed read: one entry where its address is the sentinel, none elsewhere; `pending` is the
keyboard queue the read found. -/
def readAtSentinel (c : Config) (addr : Word) (pending : List Byte) (answer : Word) : List SentinelRead :=
  if isIoAddr c addr then [{ queued := !pending.isEmpty, answer }] else []

/-- The completed reads at the sentinel that a behaviour performs when it runs from a state, oldest first. -/
def sentinelReads (c : Config) : Behaviour → State → List SentinelRead
  | .done, _ => []
  | .regGet i k, s => sentinelReads c (k ((envTurn s).reg i)) (envTurn s)
  | .regSet i v k, s => sentinelReads c k ((envTurn s).setReg i v)
  | .flagGet f k, s => sentinelReads c (k ((envTurn s).flags.get f)) (envTurn s)
  | .flagSet f b k, s => sentinelReads c k ((envTurn s).setFlag f b)
  | .busRead addr k, s =>
    match memRead c addr (envTurn s) with
    | .completed v t => readAtSentinel c addr (envTurn s).kbd v ++ sentinelReads c (k v) t
    | .faulted _ => []
    | .waits => []
  | .busWrite addr v k, s =>
    match memWrite c addr v (envTurn s) with
    | .completed _ t => sentinelReads c k t
    | .faulted _ => []
    | .waits => []
  | .haltRequest, _ => []

/-- The completed reads at the sentinel of the cycle of a fetched word, after its fetch (40_engine_cycle.md R110). -/
def cycleReads (c : Config) (w : Word) (s : State) : List SentinelRead :=
  if 16 ≤ w.toNat ∧ condPass (c.decode w).cond s.flags = true then
    sentinelReads c (c.decode w).exec (traceText c (c.decode w).text (setCurrent w (advance s)))
  else []

/-- The completed reads at the sentinel of a held cycle that goes on, if one does. -/
def heldReads (c : Config) (s : State) : List SentinelRead :=
  match s.halted, s.wait, s.cur with
  | false, some (.behaviour answers), some w =>
    sentinelReads c ((c.decode w).exec.afterAnswers answers) { envTurn s with wait := none }
  | _, _, _ => []

/-- The completed reads at the sentinel of one pass of the engine loop, the fetch included, oldest first. -/
def passReads (c : Config) (s : State) : List SentinelRead :=
  match boundary c s with
  | .settled _ => heldReads c s
  | .fetched w t => readAtSentinel c s.pc (envTurn s).kbd w ++ cycleReads c w t

/-- The sixteen flag states (41_condition_codes.md R159). -/
def allFlagStates : List Flags :=
  [false, true].flatMap fun n => [false, true].flatMap fun z => [false, true].flatMap fun c =>
    [false, true].map fun o => { n, z, c, o }

/-- In how many of the sixteen flag states a condition code passes (R141 to R156). -/
def passCount (code : CondCode) : Nat := allFlagStates.countP (condPass code)

/-- The operations performed by the test and execute steps under a code (40_engine_cycle.md R115, R116). -/
def rowOps (code : CondCode) (s : State) : List Op :=
  if condPass code s.flags then
    match s.cur with
    | some w => performedOps params (params.decode w).exec (traceText params (params.decode w).text s)
    | none => []
  else []

/-- The operations performed by an instruction: none by a GUARD word, for an EXT word those of its record's row after
the advance and the decode, for a condition row its own. -/
def instrOps (i : Instr) (s : State) : List Op :=
  match i with
  | .guard _ => []
  | .ext w => rowOps (params.decode w).cond (setCurrent w (advance s))
  | .cond0 => rowOps 0b0000#4 s
  | .cond1 => rowOps 0b0001#4 s
  | .cond2 => rowOps 0b0010#4 s
  | .cond3 => rowOps 0b0011#4 s
  | .cond4 => rowOps 0b0100#4 s
  | .cond5 => rowOps 0b0101#4 s
  | .cond6 => rowOps 0b0110#4 s
  | .cond7 => rowOps 0b0111#4 s
  | .cond8 => rowOps 0b1000#4 s
  | .cond9 => rowOps 0b1001#4 s
  | .cond10 => rowOps 0b1010#4 s
  | .cond11 => rowOps 0b1011#4 s
  | .cond12 => rowOps 0b1100#4 s
  | .cond13 => rowOps 0b1101#4 s
  | .cond14 => rowOps 0b1110#4 s
  | .cond15 => rowOps 0b1111#4 s

end Sys2Proof.Machine
end

