-- ==== Sys2Proof/Laws/State.lean ====
section
/-! SUPPORT. One lemma per field per update of the state, so that no later proof unfolds a record update. -/

namespace Sys2Proof.Machine

/-! ### A register write changes `regs` only (10_state.md R22) -/

@[simp] theorem State.setReg_mem (s : State) (i : RegIndex) (v : Word) : (s.setReg i v).mem = s.mem :=
  by unfold State.setReg; split <;> rfl
@[simp] theorem State.setReg_flags (s : State) (i : RegIndex) (v : Word) : (s.setReg i v).flags = s.flags :=
  by unfold State.setReg; split <;> rfl
@[simp] theorem State.setReg_halted (s : State) (i : RegIndex) (v : Word) : (s.setReg i v).halted = s.halted :=
  by unfold State.setReg; split <;> rfl
@[simp] theorem State.setReg_cur (s : State) (i : RegIndex) (v : Word) : (s.setReg i v).cur = s.cur :=
  by unfold State.setReg; split <;> rfl
@[simp] theorem State.setReg_kbd (s : State) (i : RegIndex) (v : Word) : (s.setReg i v).kbd = s.kbd :=
  by unfold State.setReg; split <;> rfl
@[simp] theorem State.setReg_stopPending (s : State) (i : RegIndex) (v : Word) :
    (s.setReg i v).stopPending = s.stopPending := by unfold State.setReg; split <;> rfl
@[simp] theorem State.setReg_out (s : State) (i : RegIndex) (v : Word) : (s.setReg i v).out = s.out :=
  by unfold State.setReg; split <;> rfl
@[simp] theorem State.setReg_diag (s : State) (i : RegIndex) (v : Word) : (s.setReg i v).diag = s.diag :=
  by unfold State.setReg; split <;> rfl
@[simp] theorem State.setReg_trace (s : State) (i : RegIndex) (v : Word) : (s.setReg i v).trace = s.trace :=
  by unfold State.setReg; split <;> rfl
@[simp] theorem State.setReg_env (s : State) (i : RegIndex) (v : Word) : (s.setReg i v).env = s.env :=
  by unfold State.setReg; split <;> rfl
@[simp] theorem State.setReg_wait (s : State) (i : RegIndex) (v : Word) : (s.setReg i v).wait = s.wait :=
  by unfold State.setReg; split <;> rfl

@[simp] theorem State.setReg_zero (s : State) (v : Word) : s.setReg 0#4 v = s := rfl

/-- R21 after R22: the register written reads the value, register 0 stays 0, every other is unchanged. -/
theorem State.reg_setReg (s : State) (i j : RegIndex) (v : Word) :
    (s.setReg i v).reg j = if j = 0#4 then 0#32 else if j = i then v else s.reg j := by
  unfold State.setReg State.reg
  by_cases hj : j = 0#4
  · simp [hj]
  · by_cases hi : i = 0#4
    · simp [hi, hj]
    · have hne : i.toNat = j.toNat ↔ j = i :=
        ⟨fun h => (BitVec.eq_of_toNat_eq h).symm, fun h => by rw [h]⟩
      simp only [hi, hj, if_false, Vector.getElem_set, hne]

theorem State.reg_setReg_of_ne {s : State} {i j : RegIndex} (v : Word) (h : j ≠ i) : (s.setReg i v).reg j = s.reg j := by
  rw [State.reg_setReg, if_neg h]
  split
  · subst j; rfl
  · rfl

@[simp] theorem State.reg_zero (s : State) : s.reg 0#4 = 0#32 := rfl

/-! ### The program counter is register 15 (10_state.md R25) -/

@[simp] theorem State.setPc_mem (s : State) (v : Word) : (s.setPc v).mem = s.mem := State.setReg_mem s _ v
@[simp] theorem State.setPc_flags (s : State) (v : Word) : (s.setPc v).flags = s.flags := State.setReg_flags s _ v
@[simp] theorem State.setPc_halted (s : State) (v : Word) : (s.setPc v).halted = s.halted := State.setReg_halted s _ v
@[simp] theorem State.setPc_cur (s : State) (v : Word) : (s.setPc v).cur = s.cur := State.setReg_cur s _ v
@[simp] theorem State.setPc_kbd (s : State) (v : Word) : (s.setPc v).kbd = s.kbd := State.setReg_kbd s _ v
@[simp] theorem State.setPc_stopPending (s : State) (v : Word) : (s.setPc v).stopPending = s.stopPending :=
  State.setReg_stopPending s _ v
@[simp] theorem State.setPc_out (s : State) (v : Word) : (s.setPc v).out = s.out := State.setReg_out s _ v
@[simp] theorem State.setPc_diag (s : State) (v : Word) : (s.setPc v).diag = s.diag := State.setReg_diag s _ v
@[simp] theorem State.setPc_trace (s : State) (v : Word) : (s.setPc v).trace = s.trace := State.setReg_trace s _ v
@[simp] theorem State.setPc_env (s : State) (v : Word) : (s.setPc v).env = s.env := State.setReg_env s _ v
@[simp] theorem State.setPc_wait (s : State) (v : Word) : (s.setPc v).wait = s.wait := State.setReg_wait s _ v

@[simp] theorem State.pc_setPc (s : State) (v : Word) : (s.setPc v).pc = v := by
  simp [State.pc, State.setPc, State.reg_setReg]

/-! ### A flag write changes one flag only (42_execute_interface.md R174) -/

@[simp] theorem State.setFlag_regs (s : State) (f : Flag) (b : Bool) : (s.setFlag f b).regs = s.regs := rfl
@[simp] theorem State.setFlag_mem (s : State) (f : Flag) (b : Bool) : (s.setFlag f b).mem = s.mem := rfl
@[simp] theorem State.setFlag_halted (s : State) (f : Flag) (b : Bool) : (s.setFlag f b).halted = s.halted := rfl
@[simp] theorem State.setFlag_cur (s : State) (f : Flag) (b : Bool) : (s.setFlag f b).cur = s.cur := rfl
@[simp] theorem State.setFlag_kbd (s : State) (f : Flag) (b : Bool) : (s.setFlag f b).kbd = s.kbd := rfl
@[simp] theorem State.setFlag_stopPending (s : State) (f : Flag) (b : Bool) :
    (s.setFlag f b).stopPending = s.stopPending := rfl
@[simp] theorem State.setFlag_out (s : State) (f : Flag) (b : Bool) : (s.setFlag f b).out = s.out := rfl
@[simp] theorem State.setFlag_diag (s : State) (f : Flag) (b : Bool) : (s.setFlag f b).diag = s.diag := rfl
@[simp] theorem State.setFlag_trace (s : State) (f : Flag) (b : Bool) : (s.setFlag f b).trace = s.trace := rfl
@[simp] theorem State.setFlag_env (s : State) (f : Flag) (b : Bool) : (s.setFlag f b).env = s.env := rfl
@[simp] theorem State.setFlag_wait (s : State) (f : Flag) (b : Bool) : (s.setFlag f b).wait = s.wait := rfl

theorem Flags.get_set (fl : Flags) (f g : Flag) (b : Bool) :
    (fl.set f b).get g = if g = f then b else fl.get g := by
  cases f <;> cases g <;> rfl

/-! ### A halting event changes `diag` and `halted` only (60_exceptions.md R219) -/

@[simp] theorem haltWith_regs (cause : Option Diag) (s : State) : (haltWith cause s).regs = s.regs := rfl
@[simp] theorem haltWith_mem (cause : Option Diag) (s : State) : (haltWith cause s).mem = s.mem := rfl
@[simp] theorem haltWith_flags (cause : Option Diag) (s : State) : (haltWith cause s).flags = s.flags := rfl
@[simp] theorem haltWith_cur (cause : Option Diag) (s : State) : (haltWith cause s).cur = s.cur := rfl
@[simp] theorem haltWith_kbd (cause : Option Diag) (s : State) : (haltWith cause s).kbd = s.kbd := rfl
@[simp] theorem haltWith_stopPending (cause : Option Diag) (s : State) :
    (haltWith cause s).stopPending = s.stopPending := rfl
@[simp] theorem haltWith_out (cause : Option Diag) (s : State) : (haltWith cause s).out = s.out := rfl
@[simp] theorem haltWith_trace (cause : Option Diag) (s : State) : (haltWith cause s).trace = s.trace := rfl
@[simp] theorem haltWith_env (cause : Option Diag) (s : State) : (haltWith cause s).env = s.env := rfl
@[simp] theorem haltWith_wait (cause : Option Diag) (s : State) : (haltWith cause s).wait = s.wait := rfl

@[simp] theorem haltWith_halted (cause : Option Diag) (s : State) : (haltWith cause s).halted = true := rfl
@[simp] theorem haltWith_diag (cause : Option Diag) (s : State) : (haltWith cause s).diag = s.diag ++ cause.toList :=
  rfl

/-! ### Output changes its own stream only (10_state.md R38) -/

@[simp] theorem charOut_regs (b : Byte) (s : State) : (charOut b s).regs = s.regs := rfl
@[simp] theorem charOut_mem (b : Byte) (s : State) : (charOut b s).mem = s.mem := rfl
@[simp] theorem charOut_flags (b : Byte) (s : State) : (charOut b s).flags = s.flags := rfl
@[simp] theorem charOut_halted (b : Byte) (s : State) : (charOut b s).halted = s.halted := rfl
@[simp] theorem charOut_cur (b : Byte) (s : State) : (charOut b s).cur = s.cur := rfl
@[simp] theorem charOut_kbd (b : Byte) (s : State) : (charOut b s).kbd = s.kbd := rfl
@[simp] theorem charOut_stopPending (b : Byte) (s : State) : (charOut b s).stopPending = s.stopPending := rfl
@[simp] theorem charOut_diag (b : Byte) (s : State) : (charOut b s).diag = s.diag := rfl
@[simp] theorem charOut_trace (b : Byte) (s : State) : (charOut b s).trace = s.trace := rfl
@[simp] theorem charOut_env (b : Byte) (s : State) : (charOut b s).env = s.env := rfl
@[simp] theorem charOut_wait (b : Byte) (s : State) : (charOut b s).wait = s.wait := rfl

@[simp] theorem charOut_out (b : Byte) (s : State) : (charOut b s).out = s.out ++ [b] := rfl

@[simp] theorem traceText_regs (c : Config) (text : String) (s : State) : (traceText c text s).regs = s.regs :=
  by unfold traceText; split <;> rfl
@[simp] theorem traceText_mem (c : Config) (text : String) (s : State) : (traceText c text s).mem = s.mem :=
  by unfold traceText; split <;> rfl
@[simp] theorem traceText_flags (c : Config) (text : String) (s : State) : (traceText c text s).flags = s.flags :=
  by unfold traceText; split <;> rfl
@[simp] theorem traceText_halted (c : Config) (text : String) (s : State) : (traceText c text s).halted = s.halted :=
  by unfold traceText; split <;> rfl
@[simp] theorem traceText_cur (c : Config) (text : String) (s : State) : (traceText c text s).cur = s.cur :=
  by unfold traceText; split <;> rfl
@[simp] theorem traceText_kbd (c : Config) (text : String) (s : State) : (traceText c text s).kbd = s.kbd :=
  by unfold traceText; split <;> rfl
@[simp] theorem traceText_stopPending (c : Config) (text : String) (s : State) :
    (traceText c text s).stopPending = s.stopPending := by unfold traceText; split <;> rfl
@[simp] theorem traceText_out (c : Config) (text : String) (s : State) : (traceText c text s).out = s.out :=
  by unfold traceText; split <;> rfl
@[simp] theorem traceText_diag (c : Config) (text : String) (s : State) : (traceText c text s).diag = s.diag :=
  by unfold traceText; split <;> rfl
@[simp] theorem traceText_env (c : Config) (text : String) (s : State) : (traceText c text s).env = s.env :=
  by unfold traceText; split <;> rfl
@[simp] theorem traceText_wait (c : Config) (text : String) (s : State) : (traceText c text s).wait = s.wait :=
  by unfold traceText; split <;> rfl

theorem traceText_trace (c : Config) (text : String) (s : State) :
    (traceText c text s).trace = s.trace ++ (if c.verbose then [text] else []) := by
  unfold traceText; split <;> simp

/-! ### The environment's turn touches `kbd`, `stopPending` and its own schedule only (40_engine_cycle.md R125) -/

@[simp] theorem envTurn_regs (s : State) : (envTurn s).regs = s.regs := by unfold envTurn; split <;> rfl
@[simp] theorem envTurn_mem (s : State) : (envTurn s).mem = s.mem := by unfold envTurn; split <;> rfl
@[simp] theorem envTurn_flags (s : State) : (envTurn s).flags = s.flags := by unfold envTurn; split <;> rfl
@[simp] theorem envTurn_halted (s : State) : (envTurn s).halted = s.halted := by unfold envTurn; split <;> rfl
@[simp] theorem envTurn_cur (s : State) : (envTurn s).cur = s.cur := by unfold envTurn; split <;> rfl
@[simp] theorem envTurn_out (s : State) : (envTurn s).out = s.out := by unfold envTurn; split <;> rfl
@[simp] theorem envTurn_diag (s : State) : (envTurn s).diag = s.diag := by unfold envTurn; split <;> rfl
@[simp] theorem envTurn_trace (s : State) : (envTurn s).trace = s.trace := by unfold envTurn; split <;> rfl
@[simp] theorem envTurn_wait (s : State) : (envTurn s).wait = s.wait := by unfold envTurn; split <;> rfl

/-- With no event to come, the environment's turn changes nothing. -/
theorem envTurn_of_env_nil {s : State} (h : s.env = []) : envTurn s = s := by
  unfold envTurn; rw [h]

/-! ### Step 3 and step 4 (40_engine_cycle.md R113, R114) -/

@[simp] theorem advance_mem (s : State) : (advance s).mem = s.mem := State.setPc_mem s _
@[simp] theorem advance_flags (s : State) : (advance s).flags = s.flags := State.setPc_flags s _
@[simp] theorem advance_halted (s : State) : (advance s).halted = s.halted := State.setPc_halted s _
@[simp] theorem advance_cur (s : State) : (advance s).cur = s.cur := State.setPc_cur s _
@[simp] theorem advance_kbd (s : State) : (advance s).kbd = s.kbd := State.setPc_kbd s _
@[simp] theorem advance_stopPending (s : State) : (advance s).stopPending = s.stopPending :=
  State.setPc_stopPending s _
@[simp] theorem advance_out (s : State) : (advance s).out = s.out := State.setPc_out s _
@[simp] theorem advance_diag (s : State) : (advance s).diag = s.diag := State.setPc_diag s _
@[simp] theorem advance_trace (s : State) : (advance s).trace = s.trace := State.setPc_trace s _
@[simp] theorem advance_env (s : State) : (advance s).env = s.env := State.setPc_env s _
@[simp] theorem advance_wait (s : State) : (advance s).wait = s.wait := State.setPc_wait s _

@[simp] theorem advance_pc (s : State) : (advance s).pc = s.pc + 4#32 := State.pc_setPc s _

@[simp] theorem setCurrent_regs (w : Word) (s : State) : (setCurrent w s).regs = s.regs := rfl
@[simp] theorem setCurrent_mem (w : Word) (s : State) : (setCurrent w s).mem = s.mem := rfl
@[simp] theorem setCurrent_flags (w : Word) (s : State) : (setCurrent w s).flags = s.flags := rfl
@[simp] theorem setCurrent_halted (w : Word) (s : State) : (setCurrent w s).halted = s.halted := rfl
@[simp] theorem setCurrent_kbd (w : Word) (s : State) : (setCurrent w s).kbd = s.kbd := rfl
@[simp] theorem setCurrent_stopPending (w : Word) (s : State) : (setCurrent w s).stopPending = s.stopPending := rfl
@[simp] theorem setCurrent_out (w : Word) (s : State) : (setCurrent w s).out = s.out := rfl
@[simp] theorem setCurrent_diag (w : Word) (s : State) : (setCurrent w s).diag = s.diag := rfl
@[simp] theorem setCurrent_trace (w : Word) (s : State) : (setCurrent w s).trace = s.trace := rfl
@[simp] theorem setCurrent_env (w : Word) (s : State) : (setCurrent w s).env = s.env := rfl
@[simp] theorem setCurrent_wait (w : Word) (s : State) : (setCurrent w s).wait = s.wait := rfl

@[simp] theorem setCurrent_cur (w : Word) (s : State) : (setCurrent w s).cur = some w := rfl

/-! ### Registers are read through `regs` alone -/

theorem State.reg_congr {s t : State} (h : s.regs = t.regs) (i : RegIndex) : s.reg i = t.reg i := by
  simp [State.reg, h]

@[simp] theorem State.reg_setFlag (s : State) (f : Flag) (b : Bool) (i : RegIndex) :
    (s.setFlag f b).reg i = s.reg i := rfl
@[simp] theorem reg_haltWith (cause : Option Diag) (s : State) (i : RegIndex) : (haltWith cause s).reg i = s.reg i :=
  rfl
@[simp] theorem reg_charOut (b : Byte) (s : State) (i : RegIndex) : (charOut b s).reg i = s.reg i := rfl
@[simp] theorem reg_traceText (c : Config) (text : String) (s : State) (i : RegIndex) :
    (traceText c text s).reg i = s.reg i := State.reg_congr (traceText_regs c text s) i
@[simp] theorem reg_envTurn (s : State) (i : RegIndex) : (envTurn s).reg i = s.reg i :=
  State.reg_congr (envTurn_regs s) i
@[simp] theorem reg_setCurrent (w : Word) (s : State) (i : RegIndex) : (setCurrent w s).reg i = s.reg i := rfl

@[simp] theorem pc_haltWith (cause : Option Diag) (s : State) : (haltWith cause s).pc = s.pc := rfl
@[simp] theorem pc_traceText (c : Config) (text : String) (s : State) : (traceText c text s).pc = s.pc :=
  reg_traceText c text s _
@[simp] theorem pc_envTurn (s : State) : (envTurn s).pc = s.pc := reg_envTurn s _
@[simp] theorem pc_setCurrent (w : Word) (s : State) : (setCurrent w s).pc = s.pc := rfl

/-- Step 3 leaves every register but the program counter alone. -/
theorem reg_advance_of_ne (s : State) {i : RegIndex} (h : i ≠ 15#4) : (advance s).reg i = s.reg i :=
  State.reg_setReg_of_ne _ h

end Sys2Proof.Machine
end

