-- ==== Sys2Proof/Laws/Memory.lean ====
section
/-! SUPPORT. Memory: reading after writing, and that every operation keeps the canonical form. -/

namespace Sys2Proof.Machine

/-- A canonical list says nothing of an address below it. -/
theorem lookupCell_below {hi lo x : Nat} {cells : List Host.Cell} (h : canonicalCells hi lo cells) (hx : x < lo) :
    lookupCell x cells = unlisted := by
  induction cells generalizing lo with
  | nil => rfl
  | cons cell rest ih =>
    obtain ⟨k, v⟩ := cell
    simp only [canonicalCells, Bool.and_eq_true, decide_eq_true_eq] at h
    have hk : k ≠ x := by omega
    simpa [lookupCell, hk] using ih h.2 (by omega)

/-- A canonical list says nothing of an address beyond its bound. -/
theorem lookupCell_beyond {hi lo x : Nat} {cells : List Host.Cell} (h : canonicalCells hi lo cells) (hx : hi ≤ x) :
    lookupCell x cells = unlisted := by
  induction cells generalizing lo with
  | nil => rfl
  | cons cell rest ih =>
    obtain ⟨k, v⟩ := cell
    simp only [canonicalCells, Bool.and_eq_true, decide_eq_true_eq] at h
    have hk : k ≠ x := by omega
    simpa [lookupCell, hk] using ih h.2

/-- Weakening the lower bound keeps the form. -/
theorem canonicalCells_mono {hi lo lo' : Nat} {cells : List Host.Cell} (h : canonicalCells hi lo cells)
    (hle : lo' ≤ lo) : canonicalCells hi lo' cells := by
  cases cells with
  | nil => rfl
  | cons cell rest =>
    obtain ⟨k, v⟩ := cell
    simp only [canonicalCells, Bool.and_eq_true, decide_eq_true_eq] at h ⊢
    exact ⟨⟨⟨by omega, h.1.1.2⟩, h.1.2⟩, h.2⟩

/-- Reading a byte after one was stored. -/
theorem lookupCell_storeCell {hi lo a x : Nat} {b : Byte} {cells : List Host.Cell} (h : canonicalCells hi lo cells) :
    lookupCell x (storeCell a b cells) = if x = a then b else lookupCell x cells := by
  induction cells generalizing lo with
  | nil =>
    by_cases hb : b = unlisted <;> by_cases hx : a = x <;> simp [storeCell, lookupCell, hb, hx, eq_comm (a := x)]
  | cons cell rest ih =>
    obtain ⟨k, v⟩ := cell
    simp only [canonicalCells, Bool.and_eq_true, decide_eq_true_eq] at h
    have ih := ih h.2
    have hbelow : x ≤ k → lookupCell x rest = unlisted := fun hx => lookupCell_below h.2 (by omega)
    unfold storeCell
    split
    · have hak : a ≠ k := by omega
      split <;> by_cases hx : x = a
      · have : k ≠ x := by omega
        rw [if_pos hx, lookupCell, if_neg this, hbelow (by omega)]; exact ‹b = unlisted›.symm
      · simp [hx]
      · simp [lookupCell, hx]
      · simp [lookupCell, hx, Ne.symm hx]
    · split
      · subst a
        split <;> by_cases hx : x = k
        · subst hx; simp [hbelow (le_refl _), *]
        · simp [lookupCell, hx, Ne.symm hx]
        · simp [lookupCell, hx]
        · simp [lookupCell, hx, Ne.symm hx]
      · by_cases hx : k = x
        · have : x ≠ a := by omega
          simp [lookupCell, hx, this]
        · simp [lookupCell, hx, ih]

/-- A store inside the bounds keeps the canonical form. -/
theorem canonicalCells_storeCell {hi lo a : Nat} {b : Byte} {cells : List Host.Cell} (h : canonicalCells hi lo cells)
    (hlo : lo ≤ a) (hhi : a < hi) : canonicalCells hi lo (storeCell a b cells) := by
  induction cells generalizing lo with
  | nil =>
    unfold storeCell
    split
    · rfl
    · simp only [canonicalCells, Bool.and_true, Bool.and_eq_true, decide_eq_true_eq]
      exact ⟨⟨hlo, hhi⟩, by simpa using ‹¬b = unlisted›⟩
  | cons cell rest ih =>
    obtain ⟨k, v⟩ := cell
    have h0 := h
    simp only [canonicalCells, Bool.and_eq_true, decide_eq_true_eq] at h
    obtain ⟨⟨⟨hk, hkhi⟩, hv⟩, hrest⟩ := h
    unfold storeCell
    split
    · split
      · exact h0
      · simp only [canonicalCells, Bool.and_eq_true, decide_eq_true_eq]
        exact ⟨⟨⟨hlo, hhi⟩, by simpa using ‹¬b = unlisted›⟩, ⟨⟨by omega, hkhi⟩, hv⟩, hrest⟩
    · split
      · subst a
        split
        · exact canonicalCells_mono hrest (by omega)
        · simp only [canonicalCells, Bool.and_eq_true, decide_eq_true_eq]
          exact ⟨⟨⟨hlo, hhi⟩, by simpa using ‹¬b = unlisted›⟩, hrest⟩
      · simp only [canonicalCells, Bool.and_eq_true, decide_eq_true_eq]
        exact ⟨⟨⟨hk, hkhi⟩, hv⟩, ih hrest (by omega)⟩

/-- What a well-formed memory is. -/
theorem Memory.wf_iff (m : Memory) :
    m.wf = true ↔ canonicalCells m.size 0 m.cells = true ∧ m.size % 4 = 0 ∧ m.size ≤ 2 ^ 31 := by
  simp [Memory.wf, and_assoc]

/-- The valid addresses (20_memory.md R54). -/
theorem Memory.valid_iff (m : Memory) (addr : Word) :
    m.valid addr = true ↔ addr.msb = false ∧ addr.toNat % 4 = 0 ∧ addr.toNat + 3 < m.size := by
  simp [Memory.valid, and_assoc]

@[simp] theorem Memory.setByte_size (m : Memory) (a : Nat) (b : Byte) : (m.setByte a b).size = m.size := rfl

@[simp] theorem Memory.writeWord_size (m : Memory) (a : Nat) (v : Word) : (m.writeWord a v).size = m.size := rfl

@[simp] theorem Memory.load_size (ws : List Word) : ∀ (m : Memory) (a : Nat), (m.load a ws).size = m.size := by
  induction ws with
  | nil => intros; rfl
  | cons w ws ih => intro m a; simp [Memory.load, ih]

@[simp] theorem Memory.zeroed_byte (size x : Nat) : (Memory.zeroed size).byte x = unlisted := rfl

theorem Memory.byte_setByte {m : Memory} (h : m.wf = true) (a x : Nat) (b : Byte) :
    (m.setByte a b).byte x = if x = a then b else m.byte x :=
  lookupCell_storeCell ((Memory.wf_iff m).1 h).1

theorem Memory.wf_setByte {m : Memory} (h : m.wf = true) {a : Nat} (ha : a < m.size) (b : Byte) :
    (m.setByte a b).wf = true := by
  obtain ⟨h1, h2, h3⟩ := (Memory.wf_iff m).1 h
  exact (Memory.wf_iff _).2 ⟨canonicalCells_storeCell h1 (Nat.zero_le _) ha, h2, h3⟩

/-- A word stored inside memory keeps it well formed (10_state.md R40(b)). -/
theorem Memory.wf_writeWord {m : Memory} (h : m.wf = true) {a : Nat} (ha : a + 3 < m.size) (v : Word) :
    (m.writeWord a v).wf = true := by
  have h0 := wf_setByte h (a := a) (by omega) (wordByte v 0)
  have h1 := wf_setByte h0 (a := a + 1) (by simp; omega) (wordByte v 1)
  have h2 := wf_setByte h1 (a := a + 2) (by simp; omega) (wordByte v 2)
  exact wf_setByte h2 (by simpa using ha) (wordByte v 3)

/-- The four bytes a word store writes, and that it writes no other (20_memory.md R56). -/
theorem Memory.byte_writeWord {m : Memory} (h : m.wf = true) {a : Nat} (ha : a + 3 < m.size) (v : Word) (x : Nat) :
    (m.writeWord a v).byte x =
      if x = a then wordByte v 0 else if x = a + 1 then wordByte v 1 else if x = a + 2 then wordByte v 2
      else if x = a + 3 then wordByte v 3 else m.byte x := by
  have w0 := wf_setByte h (a := a) (by omega) (wordByte v 0)
  have w1 := wf_setByte w0 (a := a + 1) (by simp; omega) (wordByte v 1)
  have w2 := wf_setByte w1 (a := a + 2) (by simp; omega) (wordByte v 2)
  simp only [Memory.writeWord, byte_setByte w2, byte_setByte w1, byte_setByte w0, byte_setByte h]
  split_ifs <;> first | rfl | omega

theorem Memory.wf_zeroed {size : Nat} (h4 : size % 4 = 0) (hmax : size ≤ 2 ^ 31) : (Memory.zeroed size).wf = true :=
  (Memory.wf_iff _).2 ⟨rfl, h4, hmax⟩

/-- Loading an image that fits keeps memory well formed. -/
theorem Memory.wf_load {ws : List Word} : ∀ {m : Memory} {a : Nat}, m.wf = true → a + 4 * ws.length ≤ m.size →
    (m.load a ws).wf = true := by
  induction ws with
  | nil => intro m a h _; exact h
  | cons w ws ih =>
    intro m a h hfit
    simp only [List.length_cons] at hfit
    exact ih (Memory.wf_writeWord h (by omega) w) (by simp; omega)

/-- A word put together from its own bytes (20_memory.md R55, R56). -/
theorem joinBytes_wordByte (v : Word) : joinBytes (wordByte v 0) (wordByte v 1) (wordByte v 2) (wordByte v 3) = v := by
  apply BitVec.eq_of_toNat_eq
  simp only [joinBytes, wordByte, BitVec.toNat_append, BitVec.extractLsb'_toNat, Nat.shiftLeft_eq, Nat.shiftRight_eq_div_pow]
  have := v.isLt
  rw [← Nat.shiftLeft_eq, ← Nat.shiftLeft_eq, ← Nat.shiftLeft_eq,
    ← Nat.shiftLeft_add_eq_or_of_lt (by omega), ← Nat.shiftLeft_add_eq_or_of_lt (by omega),
    ← Nat.shiftLeft_add_eq_or_of_lt (by omega)]
  simp only [Nat.shiftLeft_eq]
  omega

/-- The size `withFetchWord` gives memory is the larger of two (70_reset_and_hazards.md R251). -/
theorem grownSize_eq_max (size need : Nat) : grownSize size need = max size need := by
  simp only [grownSize]; omega

end Sys2Proof.Machine
end

