-- ==== Sys2Proof/Laws/Flags.lean ====
section
/-! SUPPORT. The condition evaluator: what each of the sixteen codes answers (41_condition_codes.md R141 to R156). -/

namespace Sys2Proof.Machine

variable (fl : Flags)

@[simp] theorem condPass_code0 : condPass 0b0000#4 fl = fl.z := rfl
@[simp] theorem condPass_code1 : condPass 0b0001#4 fl = !fl.z := rfl
@[simp] theorem condPass_code2 : condPass 0b0010#4 fl = fl.c := rfl
@[simp] theorem condPass_code3 : condPass 0b0011#4 fl = !fl.c := rfl
@[simp] theorem condPass_code4 : condPass 0b0100#4 fl = fl.n := rfl
@[simp] theorem condPass_code5 : condPass 0b0101#4 fl = !fl.n := rfl
@[simp] theorem condPass_code6 : condPass 0b0110#4 fl = fl.o := rfl
@[simp] theorem condPass_code7 : condPass 0b0111#4 fl = !fl.o := rfl
@[simp] theorem condPass_code8 : condPass 0b1000#4 fl = (fl.c && !fl.z) := rfl
@[simp] theorem condPass_code9 : condPass 0b1001#4 fl = !(fl.c && !fl.z) := rfl
@[simp] theorem condPass_code10 : condPass 0b1010#4 fl = (fl.n == fl.o) := rfl
@[simp] theorem condPass_code11 : condPass 0b1011#4 fl = !(fl.n == fl.o) := rfl
@[simp] theorem condPass_code12 : condPass 0b1100#4 fl = ((fl.n == fl.o) && !fl.z) := rfl
@[simp] theorem condPass_code13 : condPass 0b1101#4 fl = !((fl.n == fl.o) && !fl.z) := rfl
@[simp] theorem condPass_code14 : condPass 0b1110#4 fl = false := rfl
@[simp] theorem condPass_code15 : condPass 0b1111#4 fl = true := rfl

end Sys2Proof.Machine
end

