-- ==== Sys2Proof/Laws/Ops.lean ====
section
/-! SUPPORT. What each shared operation can do, said once. -/

namespace Sys2Proof.Machine

/-- The sentinel test is equality with `IO_ADDR` (20_memory.md R57). -/
theorem isIoAddr_iff (c : Config) (addr : Word) : isIoAddr c addr = true ↔ addr = c.ioAddr := by
  have hlow := c.ioLow.isLt
  have haddr := addr.isLt
  simp only [isIoAddr, Config.ioAddr, Bool.and_eq_true, beq_iff_eq]
  constructor
  · rintro ⟨hm, hl⟩
    apply BitVec.eq_of_toNat_eq
    have hl := congrArg BitVec.toNat hl
    rw [BitVec.msb_eq_decide, decide_eq_true_eq] at hm
    simp only [BitVec.toNat_setWidth] at hl
    rw [BitVec.toNat_append, ← Nat.shiftLeft_add_eq_or_of_lt hlow, Nat.shiftLeft_eq]
    simp only [BitVec.toNat_ofNat]
    omega
  · rintro rfl
    have hval : (1#1 ++ c.ioLow).toNat = 2 ^ 31 + c.ioLow.toNat := by
      rw [BitVec.toNat_append, ← Nat.shiftLeft_add_eq_or_of_lt hlow, Nat.shiftLeft_eq]
      simp
    constructor
    · rw [BitVec.msb_eq_decide, decide_eq_true_eq, hval]; omega
    · apply BitVec.eq_of_toNat_eq
      rw [BitVec.toNat_setWidth, hval]; omega

/-- The sentinel has bit 31 set, so it is no valid address (20_memory.md R57). -/
theorem valid_imp_not_isIoAddr {c : Config} {m : Memory} {addr : Word} (h : m.valid addr = true) :
    isIoAddr c addr = false := by
  simp [isIoAddr, ((Memory.valid_iff m addr).1 h).1]

/-- What a keyboard read can do (43_char_io.md R193, R197). -/
theorem kbdRead_cases {c : Config} {s t : State} {b : Byte} (h : kbdRead c s = some (b, t)) :
    (s.kbd = b :: t.kbd ∧ t = { s with kbd := t.kbd }) ∨
    (s.kbd = [] ∧ c.kbdStrategy = .buffered ∧ b = 0#8 ∧ t = s) := by
  unfold kbdRead at h
  split at h
  · cases h; exact .inl ⟨‹_›, rfl⟩
  · split at h
    · cases h; exact .inr ⟨‹_›, ‹_›, rfl, rfl⟩
    · cases h

/-- A keyboard read has no answer only when the strategy is blocking and nothing is queued (R197). -/
theorem kbdRead_eq_none_iff (c : Config) (s : State) :
    kbdRead c s = none ↔ s.kbd = [] ∧ c.kbdStrategy = .blocking := by
  unfold kbdRead
  split
  · simp [*]
  · split <;> simp [*]

/-- What a completed bus read can do: take a character at the sentinel, or read a valid word and change nothing. -/
theorem memRead_completed {c : Config} {addr v : Word} {s t : State} (h : memRead c addr s = .completed v t) :
    (isIoAddr c addr = true ∧ ∃ b, kbdRead c s = some (b, t) ∧ v = b.setWidth 32) ∨
    (isIoAddr c addr = false ∧ s.mem.valid addr = true ∧ v = s.mem.readWord addr.toNat ∧ t = s) := by
  unfold memRead at h
  split at h
  · split at h
    · cases h; exact .inl ⟨‹_›, _, ‹_›, rfl⟩
    · cases h
  · split at h
    · cases h; exact .inr ⟨by simpa using ‹¬isIoAddr c addr = true›, ‹_›, rfl, rfl⟩
    · cases h

/-- What a faulting bus read does (20_memory.md R60). -/
theorem memRead_faulted {c : Config} {addr : Word} {s t : State} (h : memRead c addr s = .faulted t) :
    isIoAddr c addr = false ∧ s.mem.valid addr = false ∧ t = raiseAddressFault s := by
  unfold memRead at h
  split at h
  · split at h <;> cases h
  · split at h
    · cases h
    · cases h; exact ⟨by simpa using ‹¬isIoAddr c addr = true›, by simpa using ‹¬s.mem.valid addr = true›, rfl⟩

/-- When a bus read waits (43_char_io.md R197). -/
theorem memRead_waits {c : Config} {addr : Word} {s : State} (h : memRead c addr s = .waits) :
    isIoAddr c addr = true ∧ s.kbd = [] ∧ c.kbdStrategy = .blocking := by
  unfold memRead at h
  split at h
  · split at h
    · cases h
    · exact ⟨‹_›, (kbdRead_eq_none_iff c s).1 ‹_›⟩
  · split at h <;> cases h

/-- What a completed bus write can do: emit a byte at the sentinel, or store a word at a valid address. -/
theorem memWrite_completed {c : Config} {addr v : Word} {s t : State} {u : Unit}
    (h : memWrite c addr v s = .completed u t) :
    (isIoAddr c addr = true ∧ t = charOut (v.extractLsb' 0 8) s) ∨
    (isIoAddr c addr = false ∧ s.mem.valid addr = true ∧ t = { s with mem := s.mem.writeWord addr.toNat v }) := by
  unfold memWrite at h
  split at h
  · cases h; exact .inl ⟨‹_›, rfl⟩
  · split at h
    · cases h; exact .inr ⟨by simpa using ‹¬isIoAddr c addr = true›, ‹_›, rfl⟩
    · cases h

/-- What a faulting bus write does (20_memory.md R60). -/
theorem memWrite_faulted {c : Config} {addr v : Word} {s t : State} (h : memWrite c addr v s = .faulted t) :
    isIoAddr c addr = false ∧ s.mem.valid addr = false ∧ t = raiseAddressFault s := by
  unfold memWrite at h
  split at h
  · cases h
  · split at h
    · cases h
    · cases h; exact ⟨by simpa using ‹¬isIoAddr c addr = true›, by simpa using ‹¬s.mem.valid addr = true›, rfl⟩

/-- A bus write never waits (43_char_io.md R191). -/
theorem memWrite_ne_waits (c : Config) (addr v : Word) (s : State) : memWrite c addr v s ≠ .waits := by
  unfold memWrite
  split
  · nofun
  · split <;> nofun

/-- A completed bus read changes the keyboard queue at most. -/
theorem memRead_frame {c : Config} {addr v : Word} {s t : State} (h : memRead c addr s = .completed v t) :
    t = { s with kbd := t.kbd } := by
  rcases memRead_completed h with ⟨-, b, hk, -⟩ | ⟨-, -, -, rfl⟩
  · rcases kbdRead_cases hk with ⟨-, ht⟩ | ⟨-, -, -, rfl⟩
    · exact ht
    · rfl
  · rfl

/-- A completed bus write changes memory, not its length, and the output, by appending, at most. -/
theorem memWrite_frame {c : Config} {addr v : Word} {s t : State} {u : Unit}
    (h : memWrite c addr v s = .completed u t) :
    t = { s with mem := t.mem, out := t.out } ∧ t.mem.size = s.mem.size ∧ ∃ emitted, t.out = s.out ++ emitted := by
  rcases memWrite_completed h with ⟨-, rfl⟩ | ⟨-, -, rfl⟩
  · exact ⟨rfl, rfl, _, rfl⟩
  · exact ⟨rfl, rfl, [], by simp⟩

/-- The machine the host runs has the buffered keyboard (43_char_io.md R196, decision D10). -/
@[simp] theorem params_kbdStrategy : params.kbdStrategy = .buffered := rfl

/-- The environment's turn, field by field. -/
theorem envTurn_cases (s : State) :
    (s.env = [] ∧ envTurn s = s) ∨
    ∃ batch later, s.env = batch :: later ∧
      envTurn s = { s with kbd := s.kbd ++ batchKeys batch, stopPending := s.stopPending || batchStops batch,
                           env := later } := by
  unfold envTurn
  split
  · exact .inl ⟨‹_›, rfl⟩
  · exact .inr ⟨_, _, ‹_›, rfl⟩

end Sys2Proof.Machine
end

