-- ==== Sys2Proof/Laws/Behaviour.lean ====
section
/-! SUPPORT. Behaviours: the one induction every claim about a running behaviour needs, packaged. -/

namespace Sys2Proof.Machine

/-- A predicate kept by the environment's turn, each write, each bus access, a fault, a halt and a wait is kept by
every behaviour. -/
theorem runBehaviour_keeps {c : Config} {P : State → Prop}
    (hEnv : ∀ s, P s → P (envTurn s))
    (hReg : ∀ s i v, P s → P (s.setReg i v))
    (hFlag : ∀ s f b, P s → P (s.setFlag f b))
    (hRead : ∀ s addr v t, P s → memRead c addr s = .completed v t → P t)
    (hWrite : ∀ s addr v u t, P s → memWrite c addr v s = .completed u t → P t)
    (hFault : ∀ s, P s → P (raiseAddressFault s))
    (hHalt : ∀ s, P s → P (haltWith none s))
    (hWait : ∀ s addr answers, P s → memRead c addr s = .waits → P { s with wait := some (.behaviour answers) }) :
    ∀ (b : Behaviour) (answers : List Answer) (s : State), P s → P (runBehaviour c b answers s) := by
  intro b
  induction b with
  | done => exact fun _ _ h => h
  | regGet i k ih => exact fun _ s h => ih _ _ _ (hEnv s h)
  | regSet i v k ih => exact fun _ s h => ih _ _ (hReg _ i v (hEnv s h))
  | flagGet f k ih => exact fun _ s h => ih _ _ _ (hEnv s h)
  | flagSet f v k ih => exact fun _ s h => ih _ _ (hFlag _ f v (hEnv s h))
  | busRead addr k ih =>
    intro answers s h
    simp only [runBehaviour]
    split
    · exact ih _ _ _ (hRead _ _ _ _ (hEnv s h) ‹_›)
    · obtain ⟨-, -, rfl⟩ := memRead_faulted ‹_›; exact hFault _ (hEnv s h)
    · exact hWait _ addr _ (hEnv s h) ‹_›
  | busWrite addr v k ih =>
    intro answers s h
    simp only [runBehaviour]
    split
    · exact ih _ _ (hWrite _ _ _ _ _ (hEnv s h) ‹_›)
    · obtain ⟨-, -, rfl⟩ := memWrite_faulted ‹_›; exact hFault _ (hEnv s h)
    · exact absurd ‹_› (memWrite_ne_waits c addr v _)
  | haltRequest => exact fun _ s h => hHalt _ (hEnv s h)

/-- A behaviour cannot write `cur` (42_execute_interface.md R179). -/
theorem runBehaviour_cur (c : Config) (b : Behaviour) (answers : List Answer) (s : State) :
    (runBehaviour c b answers s).cur = s.cur := by
  refine runBehaviour_keeps (P := fun t => t.cur = s.cur) ?_ ?_ ?_ ?_ ?_ ?_ ?_ ?_ b answers s rfl
  · intro t h; simpa using h
  · intro t i v h; simpa using h
  · intro t f v h; simpa using h
  · intro t addr v u h hr
    rcases memRead_completed hr with ⟨-, b, hk, -⟩ | ⟨-, -, -, rfl⟩
    · rcases kbdRead_cases hk with ⟨-, hu⟩ | ⟨-, -, -, rfl⟩
      · rw [hu]; exact h
      · exact h
    · exact h
  · intro t addr v u' u h hw
    rcases memWrite_completed hw with ⟨-, rfl⟩ | ⟨-, -, rfl⟩
    · simpa using h
    · exact h
  · exact fun t h => h
  · exact fun t h => h
  · exact fun t addr as h _ => h

end Sys2Proof.Machine
end

