-- ==== Sys2Proof/Laws/Step.lean ====
section
/-! SUPPORT. What a step can do, said once: the meanings of the sixteen condition rows are one operation applied to
their codes, and `step` is one pass of the engine loop of 40_engine_cycle.md R110. -/

namespace Sys2Proof.Machine

/-- The row a condition code selects (30_encoding.md R101) does the test and execute steps under that code
(40_engine_cycle.md R115, R116). -/
theorem exec_decodeCond (code : CondCode) (s : State) :
    exec (decodeCond code) s = .next (testAndExecute params code s) := by
  revert code
  have h : ∀ n : Fin 16, exec (decodeCond (BitVec.ofFin n)) s = .next (testAndExecute params (BitVec.ofFin n) s) := by
    intro n
    fin_cases n <;> rfl
  exact fun code => h code.toFin

/-- An EXT word advances, decodes, tests and executes (R120). -/
theorem exec_ext (w : Word) (s : State) :
    exec (.ext w) s = .next (testAndExecute params (params.decode w).cond (setCurrent w (advance s))) := rfl

/-- The two word classes, as R110 writes them in one piece. -/
theorem exec_decodeWord (w : Word) (s : State) : exec (decodeWord w) s = .next (cycleWord params w s) := by
  unfold decodeWord cycleWord
  split
  · rfl
  · rfl

/-- `step` is one pass of the engine loop (R110) with the machine's own parameters. -/
theorem step_eq_engineLoop (s : State) : step s = .next (engineLoop params s) := by
  rcases h : boundary params s with t | ⟨w, t⟩
  · simp only [step, engineLoop, h]
  · simp only [step, engineLoop, h]
    exact exec_decodeWord w t

/-- What stands before a cycle's word, by cases. -/
theorem boundary_cases (c : Config) (s : State) :
    (s.halted = true ∧ boundary c s = .settled (envTurn s)) ∨
    (s.halted = false ∧ ∃ answers, s.wait = some (.behaviour answers) ∧
      boundary c s = .settled (resumeBehaviour c answers { envTurn s with wait := none })) ∨
    (s.halted = false ∧ s.wait = some .fetch ∧ boundary c s = fetch c { envTurn s with wait := none }) ∨
    (s.halted = false ∧ s.wait = none ∧ (envTurn s).stopPending = true ∧
      boundary c s = .settled (haltWith (some .externalInterrupt) (envTurn s))) ∨
    (s.halted = false ∧ s.wait = none ∧ (envTurn s).stopPending = false ∧ boundary c s = fetch c (envTurn s)) := by
  by_cases hh : s.halted = true
  · exact .inl ⟨hh, by simp only [boundary, envTurn_halted, hh, if_true]⟩
  · have hh : s.halted = false := by simpa using hh
    rcases hw : s.wait with _ | (_ | answers)
    · rcases hs : (envTurn s).stopPending
      · exact .inr (.inr (.inr (.inr ⟨hh, rfl, rfl, by simp [boundary, hh, hw, hs]⟩)))
      · exact .inr (.inr (.inr (.inl ⟨hh, rfl, rfl, by simp [boundary, hh, hw, hs]⟩)))
    · exact .inr (.inr (.inl ⟨hh, rfl, by simp [boundary, hh, hw]⟩))
    · exact .inr (.inl ⟨hh, answers, rfl, by simp [boundary, hh, hw]⟩)

/-- The fetch, by cases (R111, 20_memory.md R61). -/
theorem fetch_cases (c : Config) (s : State) :
    (∃ w t, memRead c s.pc s = .completed w t ∧ fetch c s = .fetched w t) ∨
    (memRead c s.pc s = .faulted (raiseAddressFault s) ∧ fetch c s = .settled (raiseAddressFault s)) ∨
    (memRead c s.pc s = .waits ∧ fetch c s = .settled { s with wait := some .fetch }) := by
  rcases h : memRead c s.pc s with ⟨w, t⟩ | t | _
  · exact .inl ⟨w, t, rfl, by simp [fetch, h]⟩
  · obtain rfl := (memRead_faulted h).2.2
    exact .inr (.inl ⟨rfl, by simp [fetch, h]⟩)
  · exact .inr (.inr ⟨rfl, by simp [fetch, h]⟩)

/-- A running machine at a boundary with no pending request fetches. -/
theorem boundary_of_running {c : Config} {s : State} (hh : s.halted = false) (hw : s.wait = none)
    (hs : (envTurn s).stopPending = false) : boundary c s = fetch c (envTurn s) := by
  simp [boundary, hh, hw, hs]

/-- A fetch at a valid program counter gets the word there. -/
theorem fetch_of_valid {c : Config} {s : State} (h : s.mem.valid s.pc = true) :
    fetch c s = .fetched (s.mem.readWord s.pc.toNat) s := by
  simp [fetch, memRead, valid_imp_not_isIoAddr h, h]

end Sys2Proof.Machine
end

