-- ==== Sys2Proof/Laws/PerInstr.lean ====
section
/-! SUPPORT. Facts about the instruction as syntax, one lemma per constructor. -/

namespace Sys2Proof.Laws.TableRow

/-- The opcode table's first matching row for the code of a well-formed instruction is the instruction's own row
(30_encoding.md R101). -/
def Statement (i : Instr) : Prop := i.wf = true → tableMnemonic (encode i) = some i.mnemonic

theorem guard (low : BitVec 4) : Statement (.guard low) := by
  revert low
  unfold Statement
  decide

theorem ext (w : Word) : Statement (.ext w) := by
  intro h
  have h16 : 16 ≤ w.toNat := by simpa [Instr.wf] using h
  have hmask : (w &&& 0xFFFFFFF0#32 == 0#32) = false := by
    rw [beq_eq_false_iff_ne]
    intro h0
    have hhi : w.extractLsb' 4 28 = 0#28 := by
      apply BitVec.eq_of_getLsbD_eq
      intro i hi
      have hbit := congrArg (fun v : Word => v.getLsbD (4 + i)) h0
      simp only [BitVec.getLsbD_and, BitVec.getLsbD_zero] at hbit
      have hone : (0xFFFFFFF0#32).getLsbD (4 + i) = true := by
        have : ∀ j : Fin 28, (0xFFFFFFF0#32).getLsbD (4 + j.val) = true := by decide
        exact this ⟨i, hi⟩
      rw [hone, Bool.and_true] at hbit
      simp [BitVec.getLsbD_extractLsb', hbit]
    have hnat := congrArg BitVec.toNat hhi
    simp only [BitVec.extractLsb'_toNat, BitVec.toNat_ofNat, Nat.shiftRight_eq_div_pow] at hnat
    have := w.isLt
    omega
  simp [tableMnemonic, opcodeTable, wordRows, encode, RowPattern.accepts, Instr.mnemonic, hmask]

theorem cond0 : Statement .cond0 := fun _ => by decide
theorem cond1 : Statement .cond1 := fun _ => by decide
theorem cond2 : Statement .cond2 := fun _ => by decide
theorem cond3 : Statement .cond3 := fun _ => by decide
theorem cond4 : Statement .cond4 := fun _ => by decide
theorem cond5 : Statement .cond5 := fun _ => by decide
theorem cond6 : Statement .cond6 := fun _ => by decide
theorem cond7 : Statement .cond7 := fun _ => by decide
theorem cond8 : Statement .cond8 := fun _ => by decide
theorem cond9 : Statement .cond9 := fun _ => by decide
theorem cond10 : Statement .cond10 := fun _ => by decide
theorem cond11 : Statement .cond11 := fun _ => by decide
theorem cond12 : Statement .cond12 := fun _ => by decide
theorem cond13 : Statement .cond13 := fun _ => by decide
theorem cond14 : Statement .cond14 := fun _ => by decide
theorem cond15 : Statement .cond15 := fun _ => by decide

end Sys2Proof.Laws.TableRow
end

