-- ==== Sys2Proof/Certificates/Slice0/Obligations.lean ====
section
/-! DEFINITION. The statements for the provers, from the numbered rules of spec/. A statement quantified over a
`Config` holds for every decoder, sentinel address, keyboard strategy and trace setting. -/

open Sys2Proof Sys2Proof.Machine

/-! ## Encoding -/

/-- Every well-formed instruction, with every operand, decodes from its own code, and from its own bytes where it has
bytes (30_encoding.md R90, R92, R93, R101). -/
def Obligations.DecodeOfEncodeIsTheInstruction : Prop :=
  ∀ i : Instr, i.wf = true →
    decode (encode i) = i ∧ ∀ bytes, encodeBytes i = some bytes → bytes.length = 4 ∧ decodeBytes bytes = .ok i

/-- Every code decodes to a well-formed instruction whose code it is, and that instruction's row is the first row of
the opcode table that matches the code (R101). -/
def Obligations.DecodeFollowsTheOpcodeTable : Prop :=
  ∀ code : Code, encode (decode code) = code ∧ (decode code).wf = true ∧
    tableMnemonic code = some (decode code).mnemonic

/-- A few words and codes, written out from 30_encoding.md R92 to R94; four bytes are one word, most significant first
(R90, 20_memory.md R55), and three bytes are none (R90). -/
def Obligations.SampleCodesDecode : Prop :=
  decode (.word 0x00000000#32) = .guard 0b0000#4 ∧
  decode (.word 0x00000005#32) = .guard 0b0101#4 ∧
  decode (.word 0x0000000F#32) = .guard 0b1111#4 ∧
  decode (.word 0x00000010#32) = .ext 0x00000010#32 ∧
  decodeBytes [0xF6#8, 0x00#8, 0x00#8, 0x01#8] = .ok (.ext 0xF6000001#32) ∧
  decodeBytes [0xF6#8, 0x00#8, 0x00#8] = .error .notOneWord ∧
  decode (.cond4 0b0110#4) = .cond6 ∧
  decode (.cond4 0b1110#4) = .cond14 ∧
  decode (.cond4 0b1111#4) = .cond15

/-! ## Registers and flags -/

/-- R22 with R21: a register write is read back, register 0 ignores writes and always reads 0, and a write changes no
other register and no other state. -/
def Obligations.RegisterWriteIsReadBackExceptZero : Prop :=
  ∀ (s : State) (i : RegIndex) (v : Word),
    (i ≠ 0#4 → (s.setReg i v).reg i = v) ∧
    (s.setReg i v).reg 0#4 = 0#32 ∧
    s.setReg 0#4 v = s ∧
    (∀ j, j ≠ i → (s.setReg i v).reg j = s.reg j) ∧
    s.setReg i v = { s with regs := (s.setReg i v).regs }

/-- A flag write sets the named flag, keeps the other three and all other state (42_execute_interface.md section 2,
FlagSet). -/
def Obligations.FlagWriteChangesOneFlag : Prop :=
  ∀ (s : State) (f g : Flag) (b : Bool),
    (s.setFlag f b).flags.get f = b ∧
    (g ≠ f → (s.setFlag f b).flags.get g = s.flags.get g) ∧
    s.setFlag f b = { s with flags := (s.setFlag f b).flags }

/-- The register, flag and bus operations as a running behaviour performs them (42_execute_interface.md section 2): a
read hands on the value and changes nothing, a write is `setReg` or `setFlag`; a bus access that completes hands on its
word, or nothing, and the behaviour goes on from the state it leaves; the environment may act before each. -/
def Obligations.RegisterAndFlagOperations : Prop :=
  ∀ (c : Config) (answers : List Answer) (s : State) (i : RegIndex) (v : Word) (f : Flag) (b : Bool)
    (kw : Word → Behaviour) (kb : Bool → Behaviour) (k : Behaviour),
    runBehaviour c (.regGet i kw) answers s =
      runBehaviour c (kw (s.reg i)) (answers ++ [.word (s.reg i)]) (envTurn s) ∧
    runBehaviour c (.regSet i v k) answers s = runBehaviour c k answers ((envTurn s).setReg i v) ∧
    runBehaviour c (.flagGet f kb) answers s =
      runBehaviour c (kb (s.flags.get f)) (answers ++ [.flag (s.flags.get f)]) (envTurn s) ∧
    runBehaviour c (.flagSet f b k) answers s = runBehaviour c k answers ((envTurn s).setFlag f b) ∧
    (∀ (addr u : Word) (t : State), memRead c addr (envTurn s) = .completed u t →
      runBehaviour c (.busRead addr kw) answers s = runBehaviour c (kw u) (answers ++ [.word u]) t) ∧
    ∀ (addr u : Word) (t : State), memWrite c addr u (envTurn s) = .completed () t →
      runBehaviour c (.busWrite addr u k) answers s = runBehaviour c k answers t

/-! ## The condition evaluator -/

/-- R159's truth table, row by row, each row's first column the most significant bit; and odd codes are the complements
of even ones. -/
def Obligations.ConditionTruthTable : Prop :=
  (∀ (code : CondCode) (n z c o : Bool),
    condPass code { n, z, c, o } =
      ([0b0000111100001111#16, 0b1111000011110000#16, 0b0011001100110011#16, 0b1100110011001100#16,
        0b0000000011111111#16, 0b1111111100000000#16, 0b0101010101010101#16, 0b1010101010101010#16,
        0b0011000000110000#16, 0b1100111111001111#16, 0b1010101001010101#16, 0b0101010110101010#16,
        0b1010000001010000#16, 0b0101111110101111#16, 0b0000000000000000#16, 0b1111111111111111#16].getD
          code.toNat 0#16).getMsbD (8 * n.toNat + 4 * z.toNat + 2 * c.toNat + o.toNat)) ∧
  ∀ (sel : BitVec 3) (fl : Flags), condPass (sel ++ 1#1) fl = !condPass (sel ++ 0#1) fl

/-- R140 and R157: the base predicate of the selector, negated when the negation bit is set. -/
def Obligations.ConditionEvaluatorIsBaseAndNegation : Prop :=
  ∀ (sel : BitVec 3) (neg : BitVec 1) (fl : Flags),
    condPass (sel ++ neg) fl = (if neg = 1#1 then !condBase sel fl else condBase sel fl) ∧
    condBase 0#3 fl = fl.z ∧ condBase 1#3 fl = fl.c ∧ condBase 2#3 fl = fl.n ∧ condBase 3#3 fl = fl.o ∧
    condBase 4#3 fl = (fl.c && !fl.z) ∧ condBase 5#3 fl = (fl.n == fl.o) ∧
    condBase 6#3 fl = ((fl.n == fl.o) && !fl.z) ∧ condBase 7#3 fl = false

/-- Codes 0 and 1: predicate and pass counts are R141's and R142's. That the row, taken as an instruction, tests
and then runs the instruction in `cur` is the model's reading of the table (DEDUCED, log 20). -/
def Obligations.ZeroConditionRows : Prop :=
  decode (.cond4 0b0000#4) = .cond0 ∧ decode (.cond4 0b0001#4) = .cond1 ∧
  (∀ fl : Flags, condPass 0b0000#4 fl = fl.z ∧ condPass 0b0001#4 fl = !fl.z) ∧
  passCount 0b0000#4 = 8 ∧ passCount 0b0001#4 = 8 ∧
  ∀ s : State,
    exec .cond0 s = .next (if s.flags.z = true then executeCurrent params s else s) ∧
    exec .cond1 s = .next (if s.flags.z = false then executeCurrent params s else s)

/-- Codes 2 and 3: predicate and pass counts are R143's and R144's. That the row, taken as an instruction, tests
and then runs the instruction in `cur` is the model's reading of the table (DEDUCED, log 20). -/
def Obligations.CarryConditionRows : Prop :=
  decode (.cond4 0b0010#4) = .cond2 ∧ decode (.cond4 0b0011#4) = .cond3 ∧
  (∀ fl : Flags, condPass 0b0010#4 fl = fl.c ∧ condPass 0b0011#4 fl = !fl.c) ∧
  passCount 0b0010#4 = 8 ∧ passCount 0b0011#4 = 8 ∧
  ∀ s : State,
    exec .cond2 s = .next (if s.flags.c = true then executeCurrent params s else s) ∧
    exec .cond3 s = .next (if s.flags.c = false then executeCurrent params s else s)

/-- Codes 4 and 5: predicate and pass counts are R145's and R146's. That the row, taken as an instruction, tests
and then runs the instruction in `cur` is the model's reading of the table (DEDUCED, log 20). -/
def Obligations.NegativeConditionRows : Prop :=
  decode (.cond4 0b0100#4) = .cond4 ∧ decode (.cond4 0b0101#4) = .cond5 ∧
  (∀ fl : Flags, condPass 0b0100#4 fl = fl.n ∧ condPass 0b0101#4 fl = !fl.n) ∧
  passCount 0b0100#4 = 8 ∧ passCount 0b0101#4 = 8 ∧
  ∀ s : State,
    exec .cond4 s = .next (if s.flags.n = true then executeCurrent params s else s) ∧
    exec .cond5 s = .next (if s.flags.n = false then executeCurrent params s else s)

/-- Codes 6 and 7: predicate and pass counts are R147's and R148's. That the row, taken as an instruction, tests
and then runs the instruction in `cur` is the model's reading of the table (DEDUCED, log 20). -/
def Obligations.OverflowConditionRows : Prop :=
  decode (.cond4 0b0110#4) = .cond6 ∧ decode (.cond4 0b0111#4) = .cond7 ∧
  (∀ fl : Flags, condPass 0b0110#4 fl = fl.o ∧ condPass 0b0111#4 fl = !fl.o) ∧
  passCount 0b0110#4 = 8 ∧ passCount 0b0111#4 = 8 ∧
  ∀ s : State,
    exec .cond6 s = .next (if s.flags.o = true then executeCurrent params s else s) ∧
    exec .cond7 s = .next (if s.flags.o = false then executeCurrent params s else s)

/-- Codes 8 and 9: predicate and pass counts are R149's and R150's. That the row, taken as an instruction, tests
and then runs the instruction in `cur` is the model's reading of the table (DEDUCED, log 20). -/
def Obligations.CarryAndNotZeroConditionRows : Prop :=
  decode (.cond4 0b1000#4) = .cond8 ∧ decode (.cond4 0b1001#4) = .cond9 ∧
  (∀ fl : Flags, condPass 0b1000#4 fl = (fl.c && !fl.z) ∧ condPass 0b1001#4 fl = (!fl.c || fl.z)) ∧
  passCount 0b1000#4 = 4 ∧ passCount 0b1001#4 = 12 ∧
  ∀ s : State,
    exec .cond8 s = .next (if s.flags.c = true ∧ s.flags.z = false then executeCurrent params s else s) ∧
    exec .cond9 s = .next (if s.flags.c = false ∨ s.flags.z = true then executeCurrent params s else s)

/-- Codes 10 and 11: predicate and pass counts are R151's and R152's. That the row, taken as an instruction, tests
and then runs the instruction in `cur` is the model's reading of the table (DEDUCED, log 20). -/
def Obligations.NegativeEqualsOverflowConditionRows : Prop :=
  decode (.cond4 0b1010#4) = .cond10 ∧ decode (.cond4 0b1011#4) = .cond11 ∧
  (∀ fl : Flags, condPass 0b1010#4 fl = (fl.n == fl.o) ∧ condPass 0b1011#4 fl = (fl.n != fl.o)) ∧
  passCount 0b1010#4 = 8 ∧ passCount 0b1011#4 = 8 ∧
  ∀ s : State,
    exec .cond10 s = .next (if s.flags.n = s.flags.o then executeCurrent params s else s) ∧
    exec .cond11 s = .next (if s.flags.n ≠ s.flags.o then executeCurrent params s else s)

/-- Codes 12 and 13: predicate and pass counts are R153's and R154's. That the row, taken as an instruction, tests
and then runs the instruction in `cur` is the model's reading of the table (DEDUCED, log 20). -/
def Obligations.NegativeEqualsOverflowNotZeroConditionRows : Prop :=
  decode (.cond4 0b1100#4) = .cond12 ∧ decode (.cond4 0b1101#4) = .cond13 ∧
  (∀ fl : Flags, condPass 0b1100#4 fl = ((fl.n == fl.o) && !fl.z) ∧ condPass 0b1101#4 fl = ((fl.n != fl.o) || fl.z)) ∧
  passCount 0b1100#4 = 4 ∧ passCount 0b1101#4 = 12 ∧
  ∀ s : State,
    exec .cond12 s =
      .next (if s.flags.n = s.flags.o ∧ s.flags.z = false then executeCurrent params s else s) ∧
    exec .cond13 s =
      .next (if s.flags.n ≠ s.flags.o ∨ s.flags.z = true then executeCurrent params s else s)

/-- R155, R156 and R158: code 14 never executes, whatever the flags, and a cycle that carries it, for any decoder, only
advances the program counter and decodes; code 15 always executes. The two clauses on `exec`, the rows taken as
instructions, are the model's reading of the table (DEDUCED, log 20). -/
def Obligations.NeverAndAlwaysConditionRows : Prop :=
  decode (.cond4 0b1110#4) = .cond14 ∧ decode (.cond4 0b1111#4) = .cond15 ∧
  passCount 0b1110#4 = 0 ∧ passCount 0b1111#4 = 16 ∧
  (∀ fl : Flags, condPass 0b1110#4 fl = false ∧ condPass 0b1111#4 fl = true) ∧
  (∀ (c : Config) (w : Word) (s : State), 16 ≤ w.toNat → (c.decode w).cond = 0b1110#4 →
    cycleWord c w s = { s with regs := s.regs.set 15 (s.pc + 4#32), cur := some w }) ∧
  ∀ s : State, exec .cond14 s = .next s ∧ exec .cond15 s = .next (executeCurrent params s)

/-- What a condition row that passes does (40_engine_cycle.md section 1, step 6): the trace text, then the behaviour
of the instruction in `cur`. With no instruction in `cur` nothing runs, which is the model's choice (log 24). -/
def Obligations.PassingRowTracesThenRuns : Prop :=
  ∀ (c : Config) (s : State),
    (∀ w, s.cur = some w →
      executeCurrent c s =
        runBehaviour c (c.decode w).exec []
          (if c.verbose then { s with trace := s.trace ++ [(c.decode w).text] } else s)) ∧
    (s.cur = none → executeCurrent c s = s)

/-! ## The two word classes and the cycle -/

/-- R112 and R214: a fetched word below 16 halts the machine with its diagnostic; the program counter is not advanced,
nothing is decoded, and nothing else changes. -/
def Obligations.GuardWordHaltsBeforeTheAdvance : Prop :=
  (∀ (low : BitVec 4) (s : State),
    exec (.guard low) s = .next { s with halted := true, diag := s.diag ++ [.reservedLowValueGuard] }) ∧
  ∀ (s t : State) (w : Word), boundary params s = .fetched w t → w.toNat < 16 →
    step s = .next { t with halted := true, diag := t.diag ++ [.reservedLowValueGuard] }

/-- An EXT word (40_engine_cycle.md section 2): the advance and the decode always; then, if its record's condition
passes under the flags, the trace and the behaviour. -/
def Obligations.ExtWordAdvancesDecodesTestsExecutes : Prop :=
  ∀ (w : Word) (s : State),
    exec (.ext w) s =
      .next
        (if condPass (params.decode w).cond s.flags then
          runBehaviour params (params.decode w).exec []
            (traceText params (params.decode w).text
              { s with regs := s.regs.set 15 (s.pc + 4#32), cur := some w })
        else { s with regs := s.regs.set 15 (s.pc + 4#32), cur := some w })

/-- The second level of the opcode table (30_encoding.md section 6): after the advance and the decode an EXT word runs
the row of its record's condition code. That the row is run as an instruction is the model's reading of the table
(DEDUCED, log 20). -/
def Obligations.ExtWordRunsItsConditionRow : Prop :=
  ∀ (w : Word) (s : State),
    exec (.ext w) s =
      exec (decode (.cond4 (params.decode w).cond))
        { s with regs := s.regs.set 15 (s.pc + 4#32), cur := some w }

/-- R115: when the condition is false the cycle ends with no further side effects: exactly the program counter (by 4)
and `cur` have changed. For any decoder. -/
def Obligations.FailedConditionEndsTheCycle : Prop :=
  ∀ (c : Config) (w : Word) (s : State), 16 ≤ w.toNat → condPass (c.decode w).cond s.flags = false →
    cycleWord c w s = { s with regs := s.regs.set 15 (s.pc + 4#32), cur := some w } ∧
    (cycleWord c w s).pc = s.pc + 4#32 ∧
    ∀ i, i ≠ 15#4 → (cycleWord c w s).reg i = s.reg i

/-- The advance (10_state.md section 3): by 4 modulo `2^32`, nothing else; the wrap is the spec's decision D7
(log 10). -/
def Obligations.AdvanceAddsFourModulo : Prop :=
  ∀ s : State,
    (advance s).pc.toNat = (s.pc.toNat + 4) % 2 ^ 32 ∧
    (∀ i, i ≠ 15#4 → (advance s).reg i = s.reg i) ∧
    advance s = { s with regs := (advance s).regs }

/-- When the bytes at the program counter of a running machine decode to an instruction and no request is pending,
a step is that instruction's meaning, after the environment's turn (40_engine_cycle.md section 1). -/
def Obligations.StepRunsTheDecodedInstruction : Prop :=
  ∀ (s : State) (i : Instr),
    s.halted = false → s.wait = none → (envTurn s).stopPending = false → s.mem.valid s.pc = true →
    decodeBytes [s.mem.byte s.pc.toNat, s.mem.byte (s.pc.toNat + 1), s.mem.byte (s.pc.toNat + 2),
      s.mem.byte (s.pc.toNat + 3)] = .ok i →
    step s = exec i (envTurn s)

/-- Every step of the machine, from every state, has a next state: nothing is a fault or a refusal of the model
(42_execute_interface.md section 3; log 19). -/
def Obligations.EveryStepHasANextState : Prop := ∀ s : State, ∃ t : State, step s = .next t

/-- R111: the fetch is the bus read at the program counter, and the word it gives runs; a fetch at an invalid address
halts with the AddressFault diagnostic and changes nothing else: the program counter still holds the faulting address. -/
def Obligations.FetchReadsAtThePcAndAFaultKeepsIt : Prop :=
  ∀ s : State,
    s.halted = false → s.wait = none → (envTurn s).stopPending = false →
    (∀ (w : Word) (t : State), memRead params s.pc (envTurn s) = .completed w t →
      boundary params s = .fetched w t ∧ step s = exec (decodeWord w) t) ∧
    (s.pc ≠ params.ioAddr → s.mem.valid s.pc = false →
      step s = .next { envTurn s with halted := true, diag := s.diag ++ [.addressFault] })

/-- A fetch at the sentinel takes a keyboard character and uses it as the word; an empty queue gives the guard word 0
(20_memory.md section 4, case (c), the spec's decision D16, log 18). -/
def Obligations.FetchAtTheSentinelTakesACharacter : Prop :=
  ∀ s : State,
    s.halted = false → s.wait = none → (envTurn s).stopPending = false → s.pc = params.ioAddr →
    (∀ (b : Byte) (rest : List Byte), (envTurn s).kbd = b :: rest →
      step s = exec (decodeWord (b.setWidth 32)) { envTurn s with kbd := rest }) ∧
    ((envTurn s).kbd = [] →
      step s = .next { envTurn s with halted := true, diag := s.diag ++ [.reservedLowValueGuard] })

/-- A pending request ends the run at a cycle boundary, before the fetch and whatever the next cycle would have raised,
with its own diagnostic, and nothing else changes (60_exceptions.md sections 3 and 5, the spec's decisions D13 and D20,
log 14). -/
def Obligations.PendingRequestHaltsAtTheBoundary : Prop :=
  ∀ s : State, s.halted = false → s.wait = none → (envTurn s).stopPending = true →
    step s = .next { envTurn s with halted := true, diag := s.diag ++ [.externalInterrupt] }

/-- A halted machine stays as it is but for the environment: the keyboard producer may append to the queue and a
request may be latched, and neither is reported (10_state.md section 9, 60_exceptions.md section 7). -/
def Obligations.HaltedMachineStaysHalted : Prop :=
  ∀ s : State, s.halted = true →
    step s = .next (envTurn s) ∧
    envTurn s = { s with kbd := s.kbd ++ (s.env.take 1).flatMap batchKeys
                         stopPending := s.stopPending || (s.env.take 1).any batchStops
                         env := s.env.drop 1 }

/-- What a step of a running machine reports (60_exceptions.md sections 1, 5 and 6): it goes on and reports nothing, or
it halts on request and reports nothing (the spec's decision D14, log 16), or it halts with exactly one of the three
halting causes. -/
def Obligations.StepReportsAtMostOneHaltingEvent : Prop :=
  ∀ s t : State, s.halted = false → step s = .next t →
    t.diag = s.diag ∨
    (t.halted = true ∧ ∃ cause, (cause = .addressFault ∨ cause = .reservedLowValueGuard ∨ cause = .externalInterrupt) ∧
      t.diag = s.diag ++ [cause])

/-! ## The memory bus -/

/-- R54: the validity test, on the two's-complement reading of the pattern over unbounded integers; in a well-formed
memory the valid addresses are exactly the multiples of 4 below its size; away from the sentinel the test decides which
reads, writes and fetches complete. -/
def Obligations.ValidAddressesAreAlignedAndInside : Prop :=
  ∀ (m : Memory) (addr : Word),
    (m.valid addr = true ↔ addr.toInt % 4 = 0 ∧ 0 ≤ addr.toInt ∧ addr.toInt + 3 < m.size) ∧
    (m.wf = true → (m.valid addr = true ↔ ∃ k, addr.toNat = 4 * k ∧ 4 * k < m.size)) ∧
    ∀ (c : Config) (s : State) (v : Word), s.mem = m → addr ≠ c.ioAddr →
      ((∃ w t, memRead c addr s = .completed w t) ↔ m.valid addr = true) ∧
      ((∃ t, memWrite c addr v s = .completed () t) ↔ m.valid addr = true) ∧
      (s.pc = addr → ((∃ w t, fetch c s = .fetched w t) ↔ m.valid addr = true))

/-- R55: a read at a valid address returns the word whose bits 31..24 are the byte at the address, and so on down, and
changes nothing; the fetch reads the same way. -/
def Obligations.BusReadIsBigEndian : Prop :=
  ∀ (c : Config) (s : State) (addr : Word), s.mem.valid addr = true →
    ∃ v : Word, memRead c addr s = .completed v s ∧
      v.extractLsb' 24 8 = s.mem.byte addr.toNat ∧
      v.extractLsb' 16 8 = s.mem.byte (addr.toNat + 1) ∧
      v.extractLsb' 8 8 = s.mem.byte (addr.toNat + 2) ∧
      v.extractLsb' 0 8 = s.mem.byte (addr.toNat + 3) ∧
      (addr = s.pc → fetch c s = .fetched v s)

/-- R56: a write at a valid address stores the value's four bytes, the most significant at the lowest address, and
changes no other byte of memory and no other state. -/
def Obligations.BusWriteStoresFourBytes : Prop :=
  ∀ (c : Config) (s : State) (addr v : Word), s.mem.wf = true → s.mem.valid addr = true →
    ∃ m : Memory, memWrite c addr v s = .completed () { s with mem := m } ∧
      m.byte addr.toNat = v.extractLsb' 24 8 ∧
      m.byte (addr.toNat + 1) = v.extractLsb' 16 8 ∧
      m.byte (addr.toNat + 2) = v.extractLsb' 8 8 ∧
      m.byte (addr.toNat + 3) = v.extractLsb' 0 8 ∧
      (∀ x, x < addr.toNat ∨ addr.toNat + 4 ≤ x → m.byte x = s.mem.byte x) ∧
      m.size = s.mem.size

/-- Round trip (20_memory.md section 2): what was written at a valid address is read there, and a read at a different
valid address returns what it did before. -/
def Obligations.WriteThenReadRoundTrip : Prop :=
  ∀ (c : Config) (s : State) (addr v : Word), s.mem.wf = true → s.mem.valid addr = true →
    ∃ t, memWrite c addr v s = .completed () t ∧ memRead c addr t = .completed v t ∧
      ∀ other, s.mem.valid other = true → other ≠ addr →
        ∃ u, memRead c other s = .completed u s ∧ memRead c other t = .completed u t

/-- R60: an access that is neither at the sentinel nor valid takes the AddressFault: the machine halts with its
diagnostic, no byte changes, no value is returned, and the behaviour that made the access performs nothing after it. -/
def Obligations.InvalidAccessFaultsAndAbandonsItsCaller : Prop :=
  ∀ (c : Config) (s : State) (addr v : Word) (answers : List Answer) (kr : Word → Behaviour) (kw : Behaviour),
    addr ≠ c.ioAddr → s.mem.valid addr = false →
    memRead c addr s = .faulted { s with halted := true, diag := s.diag ++ [.addressFault] } ∧
    memWrite c addr v s = .faulted { s with halted := true, diag := s.diag ++ [.addressFault] } ∧
    (addr = s.pc → fetch c s = .settled { s with halted := true, diag := s.diag ++ [.addressFault] }) ∧
    runBehaviour c (.busRead addr kr) answers s =
      { envTurn s with halted := true, diag := s.diag ++ [.addressFault] } ∧
    runBehaviour c (.busWrite addr v kw) answers s =
      { envTurn s with halted := true, diag := s.diag ++ [.addressFault] }

/-- The sentinel is one address with bit 31 set, matched before alignment and bounds (20_memory.md section 3; bit 31 is
the spec's decision D3, log 3): no access there faults, a write there leaves memory and what a read there returns as
they were, and every other pattern with bit 31 set faults. -/
def Obligations.SentinelIsOneAddressAndNeverFaults : Prop :=
  ∀ (c : Config) (s t : State) (v : Word),
    c.ioAddr.msb = true ∧ s.mem.valid c.ioAddr = false ∧
    memRead c c.ioAddr s ≠ .faulted t ∧
    (∃ u, memWrite c c.ioAddr v s = .completed () u ∧ u.mem = s.mem ∧ u.kbd = s.kbd ∧
      (∀ x r, memRead c c.ioAddr s = .completed x r →
        ∃ r', memRead c c.ioAddr u = .completed x r' ∧ r'.kbd = r.kbd)) ∧
    ∀ addr : Word, addr.msb = true → addr ≠ c.ioAddr →
      memRead c addr s = .faulted (raiseAddressFault s) ∧ memWrite c addr v s = .faulted (raiseAddressFault s)

/-- R58 and R193 under the buffered strategy: a read at the sentinel takes the front character, zero-extended, or gives
0 at once; two reads in a row return successive characters; no other access takes one. -/
def Obligations.SentinelReadTakesOneCharacter : Prop :=
  ∀ (c : Config) (s : State), c.kbdStrategy = .buffered →
    (s.kbd = [] → kbdRead c s = some (0#8, s) ∧ memRead c c.ioAddr s = .completed 0#32 s) ∧
    (∀ (b : Byte) (rest : List Byte), s.kbd = b :: rest →
      kbdRead c s = some (b, { s with kbd := rest }) ∧
      memRead c c.ioAddr s = .completed (b.setWidth 32) { s with kbd := rest }) ∧
    (∀ (b b' : Byte) (rest : List Byte), s.kbd = b :: b' :: rest →
      ∃ t, memRead c c.ioAddr s = .completed (b.setWidth 32) t ∧
        memRead c c.ioAddr t = .completed (b'.setWidth 32) { s with kbd := rest }) ∧
    (∀ (v : Word) (t : State), memRead c c.ioAddr s = .completed v t → v.toNat ≤ 255) ∧
    (∀ (addr v : Word) (t : State), addr ≠ c.ioAddr → memRead c addr s = .completed v t → t.kbd = s.kbd) ∧
    ∀ (addr v : Word) (t : State), memWrite c addr v s = .completed () t → t.kbd = s.kbd

/-- R59: a write at the sentinel emits the low 8 bits of the value, also the byte 0, and does nothing else. -/
def Obligations.SentinelWriteEmitsTheLowByte : Prop :=
  ∀ (c : Config) (s : State) (v : Word),
    memWrite c c.ioAddr v s = .completed () { s with out := s.out ++ [v.extractLsb' 0 8] }

/-- Self-modifying code needs no fence (20_memory.md section 6): a word written at the program counter is the word the
very next step runs. -/
def Obligations.NextFetchSeesTheWrite : Prop :=
  ∀ (s t : State) (v : Word), s.mem.wf = true → s.halted = false → s.wait = none →
    (envTurn s).stopPending = false → s.mem.valid s.pc = true →
    memWrite params s.pc v s = .completed () t →
    step t = exec (decodeWord v) (envTurn t)

/-- Memories are equal when they have the same length and the same bytes: the canonical form (10_state.md section 6, log
22). -/
def Obligations.EqualBytesAreEqualMemory : Prop :=
  ∀ m m' : Memory, m.wf = true → m'.wf = true → m.size = m'.size → (∀ a, a < m.size → m.byte a = m'.byte a) → m = m'

/-! ## Behaviours -/

/-- The requested halt (42_execute_interface.md section 2): the machine halts with no diagnostic (the spec's decision
D14) and the program counter already advanced. For any decoder. -/
def Obligations.HaltRequestStopsWithoutDiagnostic : Prop :=
  (∀ (c : Config) (answers : List Answer) (s : State),
    runBehaviour c .haltRequest answers s = { envTurn s with halted := true }) ∧
  ∀ (c : Config) (w : Word) (text : String) (s : State), 16 ≤ w.toNat →
    c.decode w = { cond := 0b1111#4, exec := .haltRequest, text } →
    (cycleWord c w s).halted = true ∧ (cycleWord c w s).diag = s.diag ∧ (cycleWord c w s).pc = s.pc + 4#32 ∧
    (cycleWord c w s).mem = s.mem ∧ (cycleWord c w s).flags = s.flags ∧ (cycleWord c w s).out = s.out ∧
    (cycleWord c w s).cur = some w ∧ ∀ i, i ≠ 15#4 → (cycleWord c w s).reg i = s.reg i

/-- A behaviour reads register 15 as the address of its own word plus 4 (10_state.md section 3, 42_execute_interface.md
section 2). For any decoder. -/
def Obligations.BehaviourSeesTheAdvancedPc : Prop :=
  ∀ (c : Config) (w : Word) (text : String) (k : Word → Behaviour) (s : State), 16 ≤ w.toNat →
    c.decode w = { cond := 0b1111#4, exec := .regGet 15#4 k, text } →
    ∃ t, cycleWord c w s = runBehaviour c (k (s.pc + 4#32)) [.word (s.pc + 4#32)] t ∧ t.pc = s.pc + 4#32

/-- A write of register 15 is a control transfer, unchecked at the write; an invalid target faults at the next fetch,
with the program counter equal to it (10_state.md section 3, 40_engine_cycle.md section 3). For any decoder. -/
def Obligations.PcWriteTransfersControlUnchecked : Prop :=
  ∀ (c : Config) (w target : Word) (text : String) (s : State), 16 ≤ w.toNat →
    c.decode w = { cond := 0b1111#4, exec := .regSet 15#4 target .done, text } →
    s.halted = false → s.wait = none → s.stopPending = false → s.env = [] →
    (cycleWord c w s).pc = target ∧ (cycleWord c w s).halted = false ∧ (cycleWord c w s).diag = s.diag ∧
    (∀ i, i ≠ 15#4 → (cycleWord c w s).reg i = s.reg i) ∧
    (target ≠ c.ioAddr → s.mem.valid target = false →
      (engineLoop c (cycleWord c w s)).pc = target ∧ (engineLoop c (cycleWord c w s)).halted = true ∧
      (engineLoop c (cycleWord c w s)).diag = s.diag ++ [.addressFault])

/-- No rollback (40_engine_cycle.md section 3, 42_execute_interface.md section 3): the register, the flag, the stored
word and the emitted byte that a behaviour wrote before its faulting access stand, whether that access is a write or a
read; what it would have done after is not done; and in the cycle of such a word the advance of the program counter
stands too. For any decoder. -/
def Obligations.FaultKeepsEarlierEffects : Prop :=
  ∀ (c : Config) (answers : List Answer) (s : State) (i j : RegIndex) (f : Flag) (b : Bool) (v u x y z good addr : Word)
    (k : Behaviour) (kr : Word → Behaviour),
    i ≠ 0#4 → j ≠ i → s.mem.wf = true → s.mem.valid good = true → addr ≠ c.ioAddr → s.mem.valid addr = false →
    let before := fun rest : Behaviour =>
      Behaviour.regSet i v (.flagSet f b (.busWrite good x (.busWrite c.ioAddr y rest)))
    let writes := before (.busWrite addr z (.regSet j u k))
    let reads := before (.busRead addr fun word => .regSet j word (kr word))
    let kept := fun t : State =>
      t.reg i = v ∧ t.flags.get f = b ∧ (∀ g, g ≠ f → t.flags.get g = s.flags.get g) ∧
      t.mem.byte good.toNat = x.extractLsb' 24 8 ∧ t.mem.byte (good.toNat + 1) = x.extractLsb' 16 8 ∧
      t.mem.byte (good.toNat + 2) = x.extractLsb' 8 8 ∧ t.mem.byte (good.toNat + 3) = x.extractLsb' 0 8 ∧
      (∀ a, a < good.toNat ∨ good.toNat + 4 ≤ a → t.mem.byte a = s.mem.byte a) ∧
      t.out = s.out ++ [y.extractLsb' 0 8] ∧ t.halted = true ∧ t.diag = s.diag ++ [.addressFault]
    ∀ faulting, faulting = writes ∨ faulting = reads →
      (kept (runBehaviour c faulting answers s) ∧
        (runBehaviour c faulting answers s).reg j = s.reg j ∧ (runBehaviour c faulting answers s).cur = s.cur) ∧
      ∀ (w : Word) (text : String), 16 ≤ w.toNat → c.decode w = { cond := 0b1111#4, exec := faulting, text } →
        kept (cycleWord c w s) ∧ (cycleWord c w s).cur = some w ∧
        (i ≠ 15#4 → (cycleWord c w s).pc = s.pc + 4#32) ∧
        (j ≠ 15#4 → (cycleWord c w s).reg j = s.reg j)

/-- What no behaviour can do (42_execute_interface.md section 3, the spec's decision D22, log 5): change `cur`, the trace or the size of memory, clear
`halted`, take back output, report anything but one AddressFault that halts it, clear a pending request, or undo the
environment. -/
def Obligations.BehaviourStaysInsideItsInterface : Prop :=
  ∀ (c : Config) (b : Behaviour) (answers : List Answer) (s : State),
    let t := runBehaviour c b answers s
    t.cur = s.cur ∧ t.trace = s.trace ∧ t.mem.size = s.mem.size ∧
    (s.halted = true → t.halted = true) ∧
    (∃ emitted, t.out = s.out ++ emitted) ∧
    (t.diag = s.diag ∨ (t.halted = true ∧ t.diag = s.diag ++ [.addressFault])) ∧
    ∃ n, t.env = s.env.drop n ∧ t.stopPending = (s.stopPending || (s.env.take n).any batchStops)

/-- The frame of a behaviour, in terms of the operations it performs (42_execute_interface.md section 2): a register or
flag none of them writes, a byte of memory none of them stores to, keeps its value; the output is what its writes at the
sentinel emit; and without a read at the sentinel the keyboard queue only grows by what the producer appends. -/
def Obligations.BehaviourFrame : Prop :=
  ∀ (c : Config) (b : Behaviour) (answers : List Answer) (s : State),
    let t := runBehaviour c b answers s
    let ops := performedOps c b s
    (∀ i, (∀ v, Op.regSet i v ∉ ops) → t.reg i = s.reg i) ∧
    (∀ f, (∀ v, Op.flagSet f v ∉ ops) → t.flags.get f = s.flags.get f) ∧
    (s.mem.wf = true → ∀ x, (∀ op ∈ ops, op.storesTo c s.mem x = false) → t.mem.byte x = s.mem.byte x) ∧
    t.out = s.out ++ ops.flatMap (Op.emits c) ∧
    (Op.busRead c.ioAddr ∉ ops →
      ∃ n, t.env = s.env.drop n ∧ t.kbd = s.kbd ++ (s.env.take n).flatMap batchKeys)

/-- The frame of every instruction, in terms of the operations it performs: the behaviour's frame, and beside it an EXT
word advances the program counter and sets `cur`, a GUARD word only halts and reports (40_engine_cycle.md section 2,
42_execute_interface.md section 2). The program counter of an EXT word that is not written by its behaviour is its
address plus 4 under any decoder. -/
def Obligations.InstructionFrame : Prop :=
  (∀ (i : Instr) (s t : State), exec i s = .next t →
    (∀ r, r ≠ 15#4 → (∀ v, Op.regSet r v ∉ instrOps i s) → t.reg r = s.reg r) ∧
    (∀ f, (∀ v, Op.flagSet f v ∉ instrOps i s) → t.flags.get f = s.flags.get f) ∧
    (s.mem.wf = true → ∀ x, (∀ op ∈ instrOps i s, op.storesTo params s.mem x = false) →
      t.mem.byte x = s.mem.byte x) ∧
    t.out = s.out ++ (instrOps i s).flatMap (Op.emits params) ∧
    t.mem.size = s.mem.size ∧ t.wait = s.wait ∧
    (s.halted = true → t.halted = true) ∧
    ((∀ w, i ≠ .ext w) → t.cur = s.cur ∧ ((∀ v, Op.regSet 15#4 v ∉ instrOps i s) → t.pc = s.pc)) ∧
    (∀ w, i = .ext w → t.cur = some w ∧ ((∀ v, Op.regSet 15#4 v ∉ instrOps i s) → t.pc = s.pc + 4#32)) ∧
    (Op.busRead params.ioAddr ∉ instrOps i s →
      ∃ n, t.env = s.env.drop n ∧ t.kbd = s.kbd ++ (s.env.take n).flatMap batchKeys) ∧
    (instrOps i s = [] → t.mem = s.mem ∧ t.kbd = s.kbd ∧ t.env = s.env ∧ t.stopPending = s.stopPending ∧
      ((∀ low, i ≠ .guard low) → t.halted = s.halted ∧ t.diag = s.diag))) ∧
  ∀ (c : Config) (w : Word) (s : State), 16 ≤ w.toNat →
    (condPass (c.decode w).cond s.flags = true → ∀ v, Op.regSet 15#4 v ∉
      performedOps c (c.decode w).exec (traceText c (c.decode w).text (setCurrent w (advance s)))) →
    (cycleWord c w s).pc = s.pc + 4#32

/-! ## Whole-machine claims -/

/-- The invariant holds after every reset the host may make, and so of `State.reset` (70_reset_and_hazards.md section 1;
10_state.md section 9). -/
def Obligations.ResetHasTheInvariant : Prop :=
  (∀ (memCfg : Nat) (image : List Word), resetArgsWf memCfg image = true → (State.resetWith memCfg image).Inv) ∧
  State.reset.Inv

/-- Every step keeps the invariant (10_state.md section 9, 60_exceptions.md section 5): register 0's slot is 0, memory
keeps its canonical form and a legal length, only EXT words are decoded, no cycle is held up, and at most one halting
event is ever reported, none while running. -/
def Obligations.StepKeepsTheInvariant : Prop :=
  ∀ s t : State, s.Inv → step s = .next t → t.Inv

/-- Characters are delivered in the order they were appended, none lost, none duplicated (43_char_io.md section 3,
20_memory.md section 6; that none is lost rests on the unbounded queue, the spec's decision D11, log 12): what a pass of
the engine takes from the front of the characters queued and still to come is exactly what its reads at the sentinel,
the fetch included, answered when a character was pending; a read that found none answered 0; a halted machine takes
none. For any decoder and either keyboard strategy; a step is such a pass. -/
def Obligations.CharactersAreDeliveredInOrder : Prop :=
  (∀ s : State, step s = .next (engineLoop params s)) ∧
  ∀ (c : Config) (s : State),
    let t := engineLoop c s
    let reads := passReads c s
    (∃ taken : List Byte, s.keysToCome = taken ++ t.keysToCome ∧
      taken.map (fun b => b.setWidth 32) = (reads.filter SentinelRead.queued).map SentinelRead.answer) ∧
    (∀ r ∈ reads, r.queued = false → r.answer = 0#32) ∧
    (s.halted = true → reads = [] ∧ t.keysToCome = s.keysToCome)

/-- The output streams and `cur` are never read (10_state.md sections 5 and 7): machines that differ in nothing else
differ in nothing else after a step. -/
def Obligations.OutputsAndCurAreNeverRead : Prop :=
  ∀ s s' t t' : State, s.wait = none → s.unobserved = s'.unobserved → step s = .next t → step s' = .next t' →
    t.unobserved = t'.unobserved

/-- The verbose setting changes the trace only (43_char_io.md section 2, 40_engine_cycle.md section 1, the spec's
decision D15, log 17): two machines that agree in everything but the trace and the setting agree in everything but the
trace after a pass of the engine, so which bytes are emitted, and all state, are the same for both along a whole run.
For any decoder. -/
def Obligations.VerboseChangesTheTraceOnly : Prop :=
  ∀ (c : Config) (v : Bool) (s s' : State),
    { s with trace := [] } = { s' with trace := [] } →
    { engineLoop { c with verbose := v } s with trace := [] } = { engineLoop c s' with trace := [] }

/-- The trace of a cycle (40_engine_cycle.md section 1): its instruction's text is appended exactly when tracing is on
and the word is an EXT word whose condition passed. For any decoder. -/
def Obligations.TraceHoldsPassedInstructions : Prop :=
  ∀ (c : Config) (w : Word) (s : State),
    (cycleWord c w s).trace =
      s.trace ++
        (if c.verbose = true ∧ 16 ≤ w.toNat ∧ condPass (c.decode w).cond s.flags = true then [(c.decode w).text]
         else [])

/-! ## Reset -/

/-- R251 and R253: memory is the configured size, or exactly the image's when that is larger, and then the warning is
reported and the machine runs all the same; register 14 holds the size. -/
def Obligations.ResetSizeWarningAndRegister14 : Prop :=
  (∀ (memCfg : Nat) (image : List Word), resetArgsWf memCfg image = true →
    (State.resetWith memCfg image).mem.size = max memCfg (4 * image.length) ∧
    ((State.resetWith memCfg image).reg 14#4).toNat = (State.resetWith memCfg image).mem.size ∧
    (State.resetWith memCfg image).halted = false ∧
    (memCfg < 4 * image.length → (State.resetWith memCfg image).diag = [.imageTooLarge]) ∧
    (4 * image.length ≤ memCfg → (State.resetWith memCfg image).diag = [])) ∧
  ∀ w0 w1 w2 w3 w4 w5 : Word,
    (State.resetWith 16 [w0, w1, w2, w3, w4, w5]).mem.size = 24 ∧
    (State.resetWith 16 [w0, w1, w2, w3, w4, w5]).reg 14#4 = 24#32 ∧
    (State.resetWith 16 [w0, w1, w2, w3, w4, w5]).diag = [.imageTooLarge]

/-- The load (70_reset_and_hazards.md section 1; the byte order is the spec's decision D24, log 22): word `k` of the
image stands at byte address `4k`, most significant byte first, and every byte after the image is 0. -/
def Obligations.ResetLoadsTheImage : Prop :=
  ∀ (memCfg : Nat) (image : List Word), resetArgsWf memCfg image = true →
    (∀ (k : Nat) (h : k < image.length),
      (State.resetWith memCfg image).mem.byte (4 * k) = image[k].extractLsb' 24 8 ∧
      (State.resetWith memCfg image).mem.byte (4 * k + 1) = image[k].extractLsb' 16 8 ∧
      (State.resetWith memCfg image).mem.byte (4 * k + 2) = image[k].extractLsb' 8 8 ∧
      (State.resetWith memCfg image).mem.byte (4 * k + 3) = image[k].extractLsb' 0 8) ∧
    ∀ a, 4 * image.length ≤ a → (State.resetWith memCfg image).mem.byte a = 0#8

/-- The rest of reset (10_state.md section 8): of these values the source states only that the machine is Running; the
others are the spec's decisions D4, D5, D6, D11, D13 and D21 (log 6 to 9, 12, 14, 16). -/
def Obligations.ResetLeavesTheRest : Prop :=
  ∀ (memCfg : Nat) (image : List Word),
    let s := State.resetWith memCfg image
    (∀ i, i ≠ 14#4 → s.reg i = 0#32) ∧ s.pc = 0#32 ∧
    (∀ f, s.flags.get f = false) ∧ s.halted = false ∧ s.cur = none ∧ s.kbd = [] ∧ s.stopPending = false ∧
    s.out = [] ∧ s.trace = []

/-- Degenerate resets (70_reset_and_hazards.md section 1): with no image the first step halts by the guard, or by an
AddressFault when there is no memory, with the program counter 0 (the spec's decision D4, log 9); a request raised
before the first boundary is looked at ends the run with nothing executed (the spec's decisions D13 and D20, log 14). -/
def Obligations.DegenerateResets : Prop :=
  (∀ memCfg : Nat, 4 ≤ memCfg →
    step (State.resetWith memCfg []) =
      .next { State.resetWith memCfg [] with halted := true, diag := [.reservedLowValueGuard] }) ∧
  step (State.resetWith 0 []) =
    .next { State.resetWith 0 [] with halted := true, diag := [.addressFault] } ∧
  ∀ (memCfg : Nat) (image : List Word),
    step { State.resetWith memCfg image with stopPending := true } =
      .next { State.resetWith memCfg image with
                stopPending := true
                halted := true
                diag := (State.resetWith memCfg image).diag ++ [.externalInterrupt] }

/-! ## The keyboard producer beside the engine, and the blocking strategy -/

/-- An append may fall between two operations of one behaviour (20_memory.md section 6): of two reads at the sentinel
the first or the second takes the character, or neither, as the append comes. -/
def Obligations.AppendMayFallBetweenTwoReads : Prop :=
  ∀ (c : Config) (s : State) (b : Byte) (answers : List Answer),
    c.kbdStrategy = .buffered → s.kbd = [] →
    let twoReads : Behaviour :=
      .busRead c.ioAddr fun x => .busRead c.ioAddr fun y => .regSet 1#4 x (.regSet 2#4 y .done)
    let after := fun env => runBehaviour c twoReads answers { s with env := env }
    ((after [[.key b]]).reg 1#4 = b.setWidth 32 ∧ (after [[.key b]]).reg 2#4 = 0#32) ∧
    ((after [[], [.key b]]).reg 1#4 = 0#32 ∧ (after [[], [.key b]]).reg 2#4 = b.setWidth 32) ∧
    ((after [[], [], [.key b]]).reg 1#4 = 0#32 ∧ (after [[], [], [.key b]]).reg 2#4 = 0#32 ∧
      (after [[], [], [.key b]]).kbd = [b])

/-- The blocking strategy (43_char_io.md section 3): a read with nothing supplied holds the engine inside its cycle,
nothing else happens, and a pending request is not looked at. That a held cycle is a state with `wait` set that steps to
itself is the model's choice (DESIGN CHOICE, log 13). -/
def Obligations.BlockingReadHoldsTheEngine : Prop :=
  ∀ (c : Config) (s : State), c.kbdStrategy = .blocking → s.kbd = [] → s.env = [] → s.halted = false →
    memRead c c.ioAddr s = .waits ∧
    (s.pc = c.ioAddr → s.wait = some .fetch → engineLoop c s = s) ∧
    ∀ (w : Word) (answers : List Answer) (k : Word → Behaviour),
      s.cur = some w → s.wait = some (.behaviour answers) →
      (c.decode w).exec.afterAnswers answers = .busRead c.ioAddr k → engineLoop c s = s

/-- A behaviour held in a blocking read goes on, once characters are supplied, exactly as if they had been there
(43_char_io.md section 3). The held state, and that supplied characters stand in `kbd`, are the model's choice (DESIGN
CHOICE, log 13). For any decoder. -/
def Obligations.HeldBehaviourGoesOnAsIfNotHeld : Prop :=
  ∀ (c : Config) (s : State) (w : Word) (answers : List Answer) (supplied : List Byte),
    s.wait = none → s.env = [] → s.halted = false → s.cur = some w →
    (runBehaviour c (c.decode w).exec [] s).wait = some (.behaviour answers) →
    engineLoop c { runBehaviour c (c.decode w).exec [] s with kbd := supplied } =
      runBehaviour c (c.decode w).exec [] { s with kbd := s.kbd ++ supplied }
end

