-- ==== Sys2Proof/Tests/Fixture.lean ====
section
/-! SUPPORT. The test-only decoder of 95_test_vectors.md section 3.0, and small states. It is NOT the machine's
instruction set: it stands in for the open parameter `Decode` so that single cycles can be checked. -/

namespace Sys2Proof.Tests

open Sys2Proof.Machine

/-- `sext_16` (00_scope.md R11). -/
def fixtureDisplacement (w : Word) : Word := (w.extractLsb' 0 16).signExtend 32

/-- The behaviours of the fixture's operations (95_test_vectors.md 3.0). -/
def fixtureExec (w : Word) : Behaviour :=
  let rd : RegIndex := w.extractLsb' 20 4
  let ra : RegIndex := w.extractLsb' 16 4
  let s := fixtureDisplacement w
  match (w.extractLsb' 24 4).toNat with
  | 1 => .regSet rd ((w.extractLsb' 0 16).setWidth 32) .done
  | 2 => .regGet ra fun a => .regSet rd (a + s) .done
  | 3 => .regGet ra fun a => .busRead (a + s) fun v => .regSet rd v .done
  | 4 => .regGet ra fun a => .regGet rd fun v => .busWrite (a + s) v .done
  | 5 => .regGet ra fun v => .flagSet .Z (v == 0#32) (.flagSet .N v.msb .done)
  | 6 => .haltRequest
  | 7 => .regGet 15#4 fun pc => .regSet 15#4 (pc + s) .done
  | 8 => .flagSet .N (w.getLsbD 3) (.flagSet .Z (w.getLsbD 2) (.flagSet .C (w.getLsbD 1) (.flagSet .O (w.getLsbD 0) .done)))
  | 9 => .regGet ra fun a => .regGet (w.extractLsb' 0 4) fun b => .regSet rd (a + b) .done
  | 10 => .regGet ra fun a => .regGet rd fun v => .busWrite (a + s) v (.regGet rd fun u => .busWrite (a + s + 4#32) u .done)
  | _ => .done

/-- The fixture decoder: the condition code is the word's top four bits. -/
def fixtureDecode (w : Word) : Instruction :=
  { cond := w.extractLsb' 28 4, exec := fixtureExec w, text := "T" }

/-- The vectors' parameters: `IO_ADDR = 0xFFFFFFFC`, buffered keyboard, not verbose. -/
def fixture : Config :=
  { decode := fixtureDecode, ioLow := 0x7FFFFFFC#31, kbdStrategy := .buffered, verbose := false }

/-- The fixture with the blocking keyboard (43_char_io.md R197). -/
def blockingFixture : Config := { fixture with kbdStrategy := .blocking }

/-- The reset state for 64 bytes of memory and an image. -/
def fresh (image : List Word) : State := State.resetWith 64 image

/-- `fresh` with the program counter at an address. -/
def freshAt (image : List Word) (pc : Word) : State := (fresh image).setPc pc

/-- The next state an outcome answers, so that a test can be decided. -/
def nextOf (o : Host.Outcome State Fault Refusal) : Option State :=
  match o with
  | .next t => some t
  | .fault _ => none
  | .refused _ => none

/-- What `nextOf` says of an outcome. -/
theorem eq_next {o : Host.Outcome State Fault Refusal} {t : State} (h : nextOf o = some t) : o = .next t := by
  cases o with
  | next u => exact congrArg _ (Option.some.inj h)
  | fault f => cases h
  | refused r => cases h

end Sys2Proof.Tests
end

