-- ==== Sys2Proof/Tests/Slice0.lean ====
section
/-! SUPPORT. Tests against the vectors of 95_test_vectors.md (cited as V<n>, S<n>), and for every statement with
hypotheses a witness that meets them. The words are written out from 30_encoding.md and from the fixture of
95_test_vectors.md section 3.0. -/

namespace Sys2Proof.Tests

open Sys2Proof.Machine

/-! ## Decoding and well-formedness -/

/-- R92, R93: word classes. -/
theorem test_decode_word_classes :
    decode (.word 0b00000000000000000000000000000000#32) = .guard 0b0000#4 ∧
    decode (.word 0b00000000000000000000000000001111#32) = .guard 0b1111#4 ∧
    decode (.word 0b00000000000000000000000000010000#32) = .ext 0x00000010#32 ∧
    decode (.word 0b11111111111111111111111111111111#32) = .ext 0xFFFFFFFF#32 := by decide

/-- R94, R101: condition codes, the codes of the first eight rows. -/
theorem test_decode_cond_low :
    decode (.cond4 0b0000#4) = .cond0 ∧ decode (.cond4 0b0001#4) = .cond1 ∧ decode (.cond4 0b0010#4) = .cond2 ∧
    decode (.cond4 0b0011#4) = .cond3 ∧ decode (.cond4 0b0100#4) = .cond4 ∧ decode (.cond4 0b0101#4) = .cond5 ∧
    decode (.cond4 0b0110#4) = .cond6 ∧ decode (.cond4 0b0111#4) = .cond7 := by decide

/-- R94, R101: condition codes, the codes of the last eight rows. -/
theorem test_decode_cond_high :
    decode (.cond4 0b1000#4) = .cond8 ∧ decode (.cond4 0b1001#4) = .cond9 ∧ decode (.cond4 0b1010#4) = .cond10 ∧
    decode (.cond4 0b1011#4) = .cond11 ∧ decode (.cond4 0b1100#4) = .cond12 ∧ decode (.cond4 0b1101#4) = .cond13 ∧
    decode (.cond4 0b1110#4) = .cond14 ∧ decode (.cond4 0b1111#4) = .cond15 := by decide

/-- R55, R90: four bytes, the first the most significant; any other number of bytes is refused by name. -/
theorem test_decode_bytes :
    decodeBytes [0x12#8, 0x34#8, 0x56#8, 0x78#8] = .ok (.ext 0x12345678#32) ∧
    decodeBytes [0x00#8, 0x00#8, 0x00#8, 0x05#8] = .ok (.guard 5#4) ∧
    decodeBytes [0x05#8, 0x00#8, 0x00#8, 0x00#8] = .ok (.ext 0x05000000#32) ∧
    decodeBytes [0x00#8, 0x00#8, 0x05#8] = .error .notOneWord := by decide

/-- The opcode table's rows, as bits of the table. -/
theorem test_decode_table_word :
    decodeTableWord 32 0 = some (.guard 0#4) ∧ decodeTableWord 32 16 = some (.ext 16#32) ∧
    decodeTableWord 8 0b1110 = some .cond14 ∧ decodeTableWord 4 0b0110 = some .cond6 ∧
    decodeTableWord 8 16 = none ∧ decodeTableWord 64 16 = none := by decide

/-- R93: an EXT term whose word is below 16 is ill-formed; 16 is the first EXT word. -/
theorem test_wf_refuses_ext_below_16 :
    Instr.wf (.ext 15#32) = false ∧ Instr.wf (.ext 0#32) = false ∧ Instr.wf (.ext 16#32) = true ∧
    Instr.wf (.guard 15#4) = true ∧ Instr.wf .cond15 = true := by decide

/-- R9: `MEM_CFG` not a multiple of 4, or above `2^31`, is refused. -/
theorem test_wf_refuses_memCfg :
    resetArgsWf 62 [] = false ∧ resetArgsWf (2 ^ 31 + 4) [] = false ∧ resetArgsWf (2 ^ 31) [] = true ∧
    resetArgsWf 0 [0#32] = true := by decide

/-- R9: an image of more than `2^29` words is refused. -/
theorem test_wf_refuses_long_image (image : List Word) (h : 2 ^ 29 < image.length) : resetArgsWf 64 image = false := by
  simp only [resetArgsWf, Bool.and_eq_false_iff, decide_eq_false_iff_not]
  omega

/-! ## Registers and flags -/

/-- V1, V2, V3, V4. -/
theorem test_registers :
    (fresh []).reg 14#4 = 0x40#32 ∧ (fresh []).reg 15#4 = 0#32 ∧ (fresh []).reg 13#4 = 0#32 ∧
    ((fresh []).setReg 5#4 0x80000000#32).reg 5#4 = 0x80000000#32 ∧
    (fresh []).setReg 0#4 1#32 = fresh [] ∧
    ((fresh []).setReg 14#4 0#32).reg 14#4 = 0#32 ∧ ((fresh []).setReg 14#4 0#32).mem.size = 64 := by decide

/-- 10_state.md R25: register 15 and the program counter are one storage. -/
theorem test_pc_is_register_15 :
    ((fresh []).setReg 15#4 0x30#32).pc = 0x30#32 ∧ (freshAt [] 0x30#32).reg 15#4 = 0x30#32 := by decide

/-- The four flags are separate (10_state.md R28). -/
theorem test_flags :
    ((fresh []).setFlag .N true).flags = { n := true, z := false, c := false, o := false } ∧
    ((fresh []).setFlag .O true).flags = { n := false, z := false, c := false, o := true } ∧
    ((fresh []).setFlag .C true).flags.get .C = true ∧ ((fresh []).setFlag .Z true).flags.get .Z = true := by decide

/-! ## The bus -/

/-- V8, V9, V10. -/
theorem test_bus_write_read :
    memWrite fixture 0x20#32 0x01020304#32 (fresh []) =
      .completed () { fresh [] with mem := { size := 64, cells := [(0x20, 1#8), (0x21, 2#8), (0x22, 3#8), (0x23, 4#8)] } } ∧
    (let t : State := { fresh [] with mem := { size := 64, cells := [(0x20, 1#8), (0x21, 2#8), (0x22, 3#8), (0x23, 4#8)] } }
     memRead fixture 0x20#32 t = .completed 0x01020304#32 t ∧ memRead fixture 0x1C#32 t = .completed 0#32 t ∧
      memRead fixture 0x24#32 t = .completed 0#32 t) := by decide

/-- V11, V12, V13, V14. -/
theorem test_bus_bounds :
    memRead fixture 0x3C#32 (fresh []) = .completed 0#32 (fresh []) ∧
    memRead fixture 0x40#32 (fresh []) = .faulted { fresh [] with halted := true, diag := [.addressFault] } ∧
    memRead fixture 0x3D#32 (fresh []) = .faulted { fresh [] with halted := true, diag := [.addressFault] } ∧
    memWrite fixture 0x21#32 7#32 (fresh []) = .faulted { fresh [] with halted := true, diag := [.addressFault] } := by
  decide

/-- V15, V16: negative addresses, the neighbours of the sentinel among them. -/
theorem test_bus_negative :
    memRead fixture 0x80000000#32 (fresh []) = .faulted (raiseAddressFault (fresh [])) ∧
    memRead fixture 0xFFFFFFF8#32 (fresh []) = .faulted (raiseAddressFault (fresh [])) := by decide

/-- V17, V18: reads at the sentinel. -/
theorem test_sentinel_read :
    memRead fixture 0xFFFFFFFC#32 { fresh [] with kbd := [0x41#8, 0x42#8] } =
      .completed 0x41#32 { fresh [] with kbd := [0x42#8] } ∧
    memRead fixture 0xFFFFFFFC#32 { fresh [] with kbd := [0x00#8, 0x43#8] } =
      .completed 0#32 { fresh [] with kbd := [0x43#8] } ∧
    memRead fixture 0xFFFFFFFC#32 (fresh []) = .completed 0#32 (fresh []) := by decide

/-- V19, V20, V21: writes at the sentinel, at a misaligned one too. -/
theorem test_sentinel_write :
    memWrite fixture 0xFFFFFFFC#32 0x12345678#32 (fresh []) = .completed () { fresh [] with out := [0x78#8] } ∧
    memWrite fixture 0xFFFFFFFC#32 0x00000100#32 (fresh []) = .completed () { fresh [] with out := [0x00#8] } ∧
    memWrite { fixture with ioLow := 0x7FFFFFFF#31 } 0xFFFFFFFF#32 0x41#32 (fresh []) =
      .completed () { fresh [] with out := [0x41#8] } := by decide

/-- V22, V23: the smallest memories. -/
theorem test_bus_small_memory :
    memRead fixture 0#32 (State.resetWith 0 []) = .faulted (raiseAddressFault (State.resetWith 0 [])) ∧
    memRead fixture 0#32 (State.resetWith 4 []) = .completed 0#32 (State.resetWith 4 []) ∧
    memRead fixture 4#32 (State.resetWith 4 []) = .faulted (raiseAddressFault (State.resetWith 4 [])) := by decide

/-- A write of the byte an unlisted address reads as takes the entry out: equal memories are equal data. -/
theorem test_write_zero_removes_cells :
    (((Memory.zeroed 64).writeWord 8 0x11223344#32).writeWord 8 0#32) = Memory.zeroed 64 := by decide

/-! ## The condition codes (V24 to V34, S5, S9) -/

theorem test_cond_simple :
    condPass 0#4 { n := false, z := true, c := false, o := false } = true ∧
    condPass 1#4 { n := false, z := true, c := false, o := false } = false ∧
    condPass 2#4 { n := true, z := true, c := false, o := true } = false ∧
    condPass 3#4 { n := true, z := true, c := false, o := true } = true ∧
    condPass 4#4 { n := true, z := false, c := false, o := false } = true ∧
    condPass 5#4 { n := true, z := false, c := false, o := false } = false ∧
    condPass 6#4 { n := true, z := true, c := true, o := false } = false ∧
    condPass 7#4 { n := true, z := true, c := true, o := false } = true := by decide

theorem test_cond_compound :
    condPass 8#4 { n := false, z := false, c := true, o := false } = true ∧
    condPass 8#4 { n := false, z := true, c := true, o := false } = false ∧
    condPass 9#4 { n := false, z := true, c := true, o := false } = true ∧
    condPass 10#4 { n := true, z := false, c := false, o := true } = true ∧
    condPass 11#4 { n := true, z := false, c := false, o := true } = false ∧
    condPass 10#4 { n := false, z := false, c := false, o := false } = true ∧
    condPass 12#4 { n := true, z := false, c := false, o := true } = true ∧
    condPass 12#4 { n := true, z := true, c := false, o := true } = false ∧
    condPass 12#4 { n := true, z := false, c := false, o := false } = false ∧
    condPass 13#4 { n := true, z := false, c := false, o := false } = true ∧
    condPass 14#4 { n := true, z := true, c := true, o := true } = false ∧
    condPass 15#4 { n := false, z := false, c := false, o := false } = true := by decide

/-- A condition row whose test fails ends the cycle with no effect (R115): flags all clear, then all set. -/
theorem test_exec_cond_rows_that_fail :
    nextOf (exec .cond0 { fresh [] with cur := some 16#32 }) = some { fresh [] with cur := some 16#32 } ∧
    nextOf (exec .cond2 { fresh [] with cur := some 16#32 }) = some { fresh [] with cur := some 16#32 } ∧
    nextOf (exec .cond4 { fresh [] with cur := some 16#32 }) = some { fresh [] with cur := some 16#32 } ∧
    nextOf (exec .cond6 { fresh [] with cur := some 16#32 }) = some { fresh [] with cur := some 16#32 } ∧
    nextOf (exec .cond8 { fresh [] with cur := some 16#32 }) = some { fresh [] with cur := some 16#32 } ∧
    nextOf (exec .cond11 { fresh [] with cur := some 16#32 }) = some { fresh [] with cur := some 16#32 } ∧
    nextOf (exec .cond14 { fresh [] with cur := some 16#32 }) = some { fresh [] with cur := some 16#32 } := by decide

/-- The same for the other codes, with N set alone or Z set alone. -/
theorem test_exec_cond_rows_that_fail_on_flags :
    let allSet : State := { fresh [] with cur := some 16#32, flags := { n := true, z := true, c := true, o := true } }
    let cOnly : State := { fresh [] with cur := some 16#32, flags := { n := false, z := false, c := true, o := false } }
    let nOnly : State := { fresh [] with cur := some 16#32, flags := { n := true, z := false, c := false, o := false } }
    nextOf (exec .cond1 allSet) = some allSet ∧ nextOf (exec .cond3 allSet) = some allSet ∧
    nextOf (exec .cond5 allSet) = some allSet ∧
    nextOf (exec .cond7 allSet) = some allSet ∧ nextOf (exec .cond12 allSet) = some allSet ∧
    nextOf (exec .cond9 cOnly) = some cOnly ∧
    nextOf (exec .cond10 nOnly) = some nOnly ∧ nextOf (exec .cond13 cOnly) = some cOnly := by decide

/-! ## Cycles -/

/-- S7: the word 5 halts, `pc` stays, nothing is decoded. -/
theorem test_guard_step :
    nextOf (step (freshAt [0#32, 0#32, 5#32] 8#32)) =
      some { freshAt [0#32, 0#32, 5#32] 8#32 with halted := true, diag := [.reservedLowValueGuard] } := by decide

/-- V37: word 15 is still a guard word. -/
theorem test_guard_15 :
    nextOf (step (fresh [0xF#32])) = some { fresh [0xF#32] with halted := true, diag := [.reservedLowValueGuard] } := by decide

/-- V39, V36: a word whose code is 14 (never), and one whose code is 15 (always) with an empty behaviour: both advance
and decode, and change nothing else. -/
theorem test_ext_advances_and_decodes :
    engineLoop fixture (fresh [0xE0000010#32]) = { freshAt [0xE0000010#32] 4#32 with cur := some 0xE0000010#32 } ∧
    engineLoop fixture (fresh [0xF0000000#32]) = { freshAt [0xF0000000#32] 4#32 with cur := some 0xF0000000#32 } := by
  decide

/-- V40, V41: a fetch fault keeps `pc`. -/
theorem test_fetch_fault :
    nextOf (step (freshAt [] 0x40#32)) = some { freshAt [] 0x40#32 with halted := true, diag := [.addressFault] } ∧
    nextOf (step (freshAt [] 0x02#32)) = some { freshAt [] 0x02#32 with halted := true, diag := [.addressFault] } := by decide

/-- V42: a behaviour faults at its second operation. -/
theorem test_fault_inside_behaviour :
    let t := runBehaviour fixture (.regSet 1#4 7#32 (.busWrite 0x41#32 0#32 (.regSet 2#4 9#32 .done))) [] (fresh [])
    t.reg 1#4 = 7#32 ∧ t.reg 2#4 = 0#32 ∧ t.halted = true ∧ t.diag = [.addressFault] := by decide

/-- V43: a jump to an invalid address faults at the next fetch. -/
theorem test_jump_unchecked :
    let t := engineLoop fixture (freshAt [0#32, 0#32, 0#32, 0#32, 0xF1F00011#32] 0x10#32)
    t.pc = 0x11#32 ∧ t.halted = false ∧ (engineLoop fixture t).pc = 0x11#32 ∧
    (engineLoop fixture t).diag = [.addressFault] := by decide

/-- V44: the requested halt. -/
theorem test_halt_request :
    let t := engineLoop fixture (freshAt [0#32, 0#32, 0#32, 0#32, 0xF6000000#32] 0x10#32)
    t.pc = 0x14#32 ∧ t.halted = true ∧ t.diag = [] := by decide

/-- V45, V46: a pending request, and a halted machine. -/
theorem test_stop :
    nextOf (step { freshAt [] 0x10#32 with stopPending := true, kbd := [0x41#8] }) =
      some { freshAt [] 0x10#32 with
        stopPending := true, kbd := [0x41#8], halted := true, diag := [.externalInterrupt] } ∧
    nextOf (step { fresh [] with halted := true, stopPending := true }) =
      some { fresh [] with halted := true, stopPending := true } := by decide

/-- V47, V48: a fetch at the sentinel, `pc` wrapping. -/
theorem test_fetch_at_sentinel :
    (engineLoop fixture { freshAt [] 0xFFFFFFFC#32 with kbd := [0x41#8] }).cur = some 0x41#32 ∧
    (engineLoop fixture { freshAt [] 0xFFFFFFFC#32 with kbd := [0x41#8] }).pc = 0#32 ∧
    engineLoop fixture (freshAt [] 0xFFFFFFFC#32) =
      { freshAt [] 0xFFFFFFFC#32 with halted := true, diag := [.reservedLowValueGuard] } := by decide

/-- V49: the trace. -/
theorem test_trace :
    (engineLoop { fixture with verbose := true } (fresh [0xF0000000#32])).trace = ["T"] ∧
    (engineLoop { fixture with verbose := true } (fresh [0xE0000000#32])).trace = [] ∧
    (engineLoop fixture (fresh [0xF0000000#32])).trace = [] := by decide

/-- V50, V52, V55: reset. -/
theorem test_reset :
    (State.resetWith 16 [0xF6000000#32]).mem = { size := 16, cells := [(0, 0xF6#8)] } ∧
    (State.resetWith 16 [0#32, 0#32, 0#32, 0#32, 0#32]).mem.size = 20 ∧
    (State.resetWith 16 [0#32, 0#32, 0#32, 0#32, 0#32]).reg 14#4 = 20#32 ∧
    (State.resetWith 16 [0#32, 0#32, 0#32, 0#32, 0#32]).diag = [.imageTooLarge] ∧
    (State.resetWith 16 [0#32, 0#32, 0#32, 0#32]).diag = [] ∧
    (State.resetWith 4 [0x12345678#32]).mem.cells = [(0, 0x12#8), (1, 0x34#8), (2, 0x56#8), (3, 0x78#8)] := by decide

/-- V56, V57: the producer's append before the first read, and between two. -/
theorem test_append_interleavings :
    (runBehaviour fixture (.busRead 0xFFFFFFFC#32 fun v => .regSet 1#4 v .done) []
      { fresh [] with env := [[.key 0x61#8]] }).reg 1#4 = 0x61#32 ∧
    (runBehaviour fixture (.busRead 0xFFFFFFFC#32 fun _ => .busRead 0xFFFFFFFC#32 fun v => .regSet 1#4 v .done) []
      { fresh [] with env := [[], [.key 0x61#8]] }).reg 1#4 = 0x61#32 := by decide

/-- The blocking strategy: `LDW r1, -4(r0)` is held at its second operation, and goes on when a character comes. -/
theorem test_blocking :
    let held := engineLoop blockingFixture (fresh [0xF310FFFC#32])
    held.wait = some (.behaviour [.word 0#32]) ∧ held.pc = 4#32 ∧ held.halted = false ∧
    engineLoop blockingFixture held = held ∧
    (engineLoop blockingFixture { held with kbd := [0x41#8] }).reg 1#4 = 0x41#32 ∧
    (engineLoop blockingFixture { held with kbd := [0x41#8] }).wait = none := by decide

/-- A word placed by `withFetchWord` is what the next step runs: a GUARD word halts; an EXT word goes through the
open decoder. -/
theorem test_withFetchWord :
    nextOf (step (State.reset.withFetchWord 32 5)) =
      some { State.reset.withFetchWord 32 5 with halted := true, diag := [.reservedLowValueGuard], env := [] } ∧
    boundary params ((fresh []).withFetchWord 32 16) = .fetched 16#32 { (fresh []).withFetchWord 32 16 with env := [] } := by
  constructor
  · rfl
  · decide

/-! ## Witnesses: states and operands that meet each statement's hypotheses -/

/-- DecodeOfEncodeIsTheInstruction. -/
theorem witness_wf :
    Instr.wf (.ext 0x10#32) = true ∧ encodeBytes (.ext 0x10#32) = some [0#8, 0#8, 0#8, 0x10#8] ∧
    Instr.wf (.guard 15#4) = true ∧ encodeBytes (.guard 15#4) = some [0#8, 0#8, 0#8, 15#8] ∧ Instr.wf .cond15 = true := by
  decide

/-- RegisterWriteIsReadBackExceptZero, FlagWriteChangesOneFlag: the clauses' conditions. -/
theorem witness_indices : (15#4 : RegIndex) ≠ 0#4 ∧ (1#4 : RegIndex) ≠ 15#4 ∧ (0#4 : RegIndex) ≠ 1#4 ∧ Flag.N ≠ Flag.O := by
  decide

/-- RegisterAndFlagOperations: a read and a write that complete, in memory and at the sentinel. -/
theorem witness_access_completes :
    memRead fixture 0x3C#32 (envTurn (fresh [])) = .completed 0#32 (fresh []) ∧
    memRead fixture 0xFFFFFFFC#32 (envTurn { fresh [] with env := [[.key 0x41#8]] }) = .completed 0x41#32 (fresh []) ∧
    memWrite fixture 0#32 0x12345678#32 (envTurn (fresh [])) = .completed () (fresh [0x12345678#32]) ∧
    memWrite fixture 0xFFFFFFFC#32 0x41#32 (envTurn (fresh [])) = .completed () { fresh [] with out := [0x41#8] } := by
  decide

/-- PassingRowTracesThenRuns: both clauses. -/
theorem witness_cur :
    State.cur { fresh [] with cur := some 16#32 } = some 16#32 ∧ (fresh []).cur = none := by decide

/-- NeverAndAlwaysConditionRows: a word of the fixture whose code is 14. -/
theorem witness_never_word :
    16 ≤ (0xE6000000#32 : Word).toNat ∧ (fixture.decode 0xE6000000#32).cond = 0b1110#4 := by decide

/-- GuardWordHaltsBeforeTheAdvance: the boundary words 0 and 15. -/
theorem witness_guard_fetched :
    boundary params (fresh [15#32]) = .fetched 15#32 (fresh [15#32]) ∧ (15#32 : Word).toNat < 16 ∧
    boundary params (fresh []) = .fetched 0#32 (fresh []) ∧ (0#32 : Word).toNat < 16 := by decide

/-- FailedConditionEndsTheCycle: a code that fails on these flags, and the code that never passes. -/
theorem witness_failed_condition :
    16 ≤ (0x01300007#32 : Word).toNat ∧ condPass (fixture.decode 0x01300007#32).cond (fresh []).flags = false ∧
    16 ≤ (0xE6000000#32 : Word).toNat ∧ condPass (fixture.decode 0xE6000000#32).cond (fresh []).flags = false := by decide

/-- StepRunsTheDecodedInstruction: an EXT word at the last word of memory, with the environment acting. -/
theorem witness_step_runs :
    let s : State := { freshAt (List.replicate 15 0#32 ++ [0xF6000000#32]) 0x3C#32 with env := [[.key 0x41#8]] }
    s.halted = false ∧ s.wait = none ∧ (envTurn s).stopPending = false ∧ s.mem.valid s.pc = true ∧
    decodeBytes [s.mem.byte s.pc.toNat, s.mem.byte (s.pc.toNat + 1), s.mem.byte (s.pc.toNat + 2),
      s.mem.byte (s.pc.toNat + 3)] = .ok (.ext 0xF6000000#32) := by decide

/-- A pattern without bit 31 is not the sentinel. -/
theorem ne_ioAddr {c : Config} {addr : Word} (h : addr.msb = false) : addr ≠ c.ioAddr := by
  intro he
  have hio := (isIoAddr_iff c addr).2 he
  simp [isIoAddr, h] at hio

/-- FetchReadsAtThePcAndAFaultKeepsIt: the last word of memory for the read; the first address past memory, and a
misaligned one, for the fault. -/
theorem witness_fetch :
    ((freshAt [] 0x3C#32).halted = false ∧ (freshAt [] 0x3C#32).wait = none ∧
      (envTurn (freshAt [] 0x3C#32)).stopPending = false ∧
      memRead params (freshAt [] 0x3C#32).pc (envTurn (freshAt [] 0x3C#32)) = .completed 0#32 (freshAt [] 0x3C#32)) ∧
    ((freshAt [] 0x40#32).halted = false ∧ (freshAt [] 0x40#32).wait = none ∧
      (envTurn (freshAt [] 0x40#32)).stopPending = false ∧ (freshAt [] 0x40#32).pc ≠ params.ioAddr ∧
      (freshAt [] 0x40#32).mem.valid (freshAt [] 0x40#32).pc = false) ∧
    (freshAt [] 0x02#32).halted = false ∧ (freshAt [] 0x02#32).wait = none ∧
      (envTurn (freshAt [] 0x02#32)).stopPending = false ∧ (freshAt [] 0x02#32).pc ≠ params.ioAddr ∧
      (freshAt [] 0x02#32).mem.valid (freshAt [] 0x02#32).pc = false :=
  ⟨⟨rfl, rfl, rfl, by decide⟩, ⟨rfl, rfl, rfl, ne_ioAddr (by decide), by decide⟩, rfl, rfl, rfl, ne_ioAddr (by decide), by decide⟩

/-- FetchAtTheSentinelTakesACharacter: a queued character, and none. -/
theorem witness_fetch_at_sentinel :
    let s : State := { (fresh []).setPc params.ioAddr with kbd := [0x41#8] }
    let e : State := (fresh []).setPc params.ioAddr
    (s.halted = false ∧ s.wait = none ∧ (envTurn s).stopPending = false ∧ s.pc = params.ioAddr ∧
      (envTurn s).kbd = [0x41#8]) ∧
    e.halted = false ∧ e.wait = none ∧ (envTurn e).stopPending = false ∧ e.pc = params.ioAddr ∧ (envTurn e).kbd = [] :=
  ⟨⟨rfl, rfl, rfl, rfl, rfl⟩, rfl, rfl, rfl, rfl, rfl⟩

/-- PendingRequestHaltsAtTheBoundary: latched before, and raised at this very point. -/
theorem witness_pending :
    let s : State := { fresh [] with stopPending := true }
    let e : State := { fresh [] with env := [[.stop]] }
    (s.halted = false ∧ s.wait = none ∧ (envTurn s).stopPending = true) ∧
    e.halted = false ∧ e.wait = none ∧ (envTurn e).stopPending = true := by decide

/-- HaltedMachineStaysHalted, BehaviourStaysInsideItsInterface, CharactersAreDeliveredInOrder: a halted machine. -/
theorem witness_halted :
    State.halted { fresh [] with halted := true, env := [[.key 0x41#8, .stop]] } = true ∧
    step { fresh [] with halted := true } = .next { fresh [] with halted := true } :=
  ⟨rfl, eq_next (by decide)⟩

/-- StepReportsAtMostOneHaltingEvent, StepKeepsTheInvariant: a step of a running machine. -/
theorem witness_running_step :
    (fresh []).halted = false ∧
    step (fresh []) = .next { fresh [] with halted := true, diag := [.reservedLowValueGuard] } :=
  ⟨rfl, eq_next (by decide)⟩

/-- StepKeepsTheInvariant: the same state meets the invariant. -/
theorem witness_inv : (fresh []).Inv :=
  { zeroSlot := by decide
    memWf := by decide
    curExt := fun w h => by cases h
    noWait := by decide
    oneHalt := by decide
    runningClean := by decide }

/-- ValidAddressesAreAlignedAndInside: the last valid address, and addresses that are not valid. -/
theorem witness_valid :
    (fresh []).mem.wf = true ∧ (fresh []).mem.valid 0x3C#32 = true ∧ (fresh []).mem.valid 0#32 = true ∧
    (fresh []).mem.valid 0x40#32 = false ∧ (fresh []).mem.valid 0x3E#32 = false ∧
    (fresh []).mem.valid 0x80000000#32 = false ∧
    (0x3C#32 : Word) ≠ fixture.ioAddr ∧ (0x40#32 : Word) ≠ fixture.ioAddr ∧
    (freshAt [] 0x3C#32).mem = (fresh []).mem ∧ (freshAt [] 0x3C#32).pc = 0x3C#32 := by decide

/-- BusReadIsBigEndian, BusWriteStoresFourBytes, WriteThenReadRoundTrip: two valid addresses, the first and the last;
the fetch clause at the program counter. -/
theorem witness_access :
    (fresh [0x12345678#32]).mem.wf = true ∧ (fresh [0x12345678#32]).mem.valid 0#32 = true ∧
    (fresh [0x12345678#32]).mem.valid 0x3C#32 = true ∧ (0x3C#32 : Word) ≠ 0#32 ∧
    (fresh [0x12345678#32]).pc = 0#32 := by decide

/-- InvalidAccessFaultsAndAbandonsItsCaller, at the end of memory, which is also the program counter here. -/
theorem witness_invalid_access :
    (0x40#32 : Word) ≠ fixture.ioAddr ∧ (fresh []).mem.valid 0x40#32 = false ∧
    (0x40#32 : Word) = (freshAt [] 0x40#32).pc ∧ (freshAt [] 0x40#32).mem.valid 0x40#32 = false := by decide

/-- SentinelIsOneAddressAndNeverFaults: patterns with bit 31 set that are not the sentinel, and a read that
completes. -/
theorem witness_not_sentinel :
    (0xFFFFFFF8#32 : Word).msb = true ∧ (0xFFFFFFF8#32 : Word) ≠ fixture.ioAddr ∧
    (0x80000000#32 : Word).msb = true ∧ (0x80000000#32 : Word) ≠ fixture.ioAddr ∧
    memRead fixture fixture.ioAddr { fresh [] with kbd := [0x41#8] } = .completed 0x41#32 (fresh []) := by decide

/-- SentinelReadTakesOneCharacter, AppendMayFallBetweenTwoReads: the buffered strategy, with an empty queue, one and
two characters. -/
theorem witness_queue :
    fixture.kbdStrategy = .buffered ∧ (fresh []).kbd = [] ∧
    State.kbd { fresh [] with kbd := [0xFF#8] } = 0xFF#8 :: [] ∧
    State.kbd { fresh [] with kbd := [0x00#8, 0x43#8] } = 0x00#8 :: 0x43#8 :: [] ∧
    memRead fixture fixture.ioAddr { fresh [] with kbd := [0xFF#8] } = .completed 0xFF#32 (fresh []) ∧
    (0x3C#32 : Word) ≠ fixture.ioAddr ∧ memRead fixture 0x3C#32 (fresh []) = .completed 0#32 (fresh []) ∧
    memWrite fixture fixture.ioAddr 0x41#32 (fresh []) = .completed () { fresh [] with out := [0x41#8] } := by decide

/-- NextFetchSeesTheWrite. -/
theorem witness_write_at_pc :
    let s := fresh [0x10#32]
    s.mem.wf = true ∧ s.halted = false ∧ s.wait = none ∧ (envTurn s).stopPending = false ∧ s.mem.valid s.pc = true ∧
    memWrite params s.pc 5#32 s = .completed () (fresh [5#32]) := by decide

/-- EqualBytesAreEqualMemory: two memories built in different orders. -/
theorem witness_equal_bytes :
    let m := ((Memory.zeroed 4).setByte 1 7#8).setByte 0 9#8
    let m' := ((Memory.zeroed 4).setByte 0 9#8).setByte 1 7#8
    m.wf = true ∧ m'.wf = true ∧ m.size = m'.size ∧ ∀ a, a < m.size → m.byte a = m'.byte a := by decide

/-- HaltRequestStopsWithoutDiagnostic: the fixture's `HLT`. -/
theorem witness_halt_word :
    16 ≤ (0xF6000000#32 : Word).toNat ∧
    fixture.decode 0xF6000000#32 = { cond := 0b1111#4, exec := .haltRequest, text := "T" } :=
  ⟨by decide, rfl⟩

/-- BehaviourSeesTheAdvancedPc: the fixture's `BR -4`. -/
theorem witness_branch_word :
    16 ≤ (0xF700FFFC#32 : Word).toNat ∧
    fixture.decode 0xF700FFFC#32 =
      { cond := 0b1111#4
        exec := .regGet 15#4 fun pc => .regSet 15#4 (pc + fixtureDisplacement 0xF700FFFC#32) .done
        text := "T" } :=
  ⟨by decide, rfl⟩

/-- PcWriteTransfersControlUnchecked: the fixture's `LI r15, 0x11`, whose target is invalid. -/
theorem witness_jump_word :
    (16 ≤ (0xF1F00011#32 : Word).toNat ∧
      fixture.decode 0xF1F00011#32 = { cond := 0b1111#4, exec := .regSet 15#4 0x11#32 .done, text := "T" }) ∧
    (fresh []).halted = false ∧ (fresh []).wait = none ∧ (fresh []).stopPending = false ∧ (fresh []).env = [] ∧
    (0x11#32 : Word) ≠ fixture.ioAddr ∧ (fresh []).mem.valid 0x11#32 = false :=
  ⟨⟨by decide, rfl⟩, rfl, rfl, rfl, rfl, by decide, by decide⟩

/-- FaultKeepsEarlierEffects: the operands, the last word of memory stored to and the first address past it faulting;
and a decoder that gives a word such a behaviour. -/
theorem witness_fault_operands :
    ((1#4 : RegIndex) ≠ 0#4 ∧ (2#4 : RegIndex) ≠ 1#4 ∧ (fresh []).mem.wf = true ∧ (fresh []).mem.valid 0x3C#32 = true ∧
      (0x40#32 : Word) ≠ fixture.ioAddr ∧ (fresh []).mem.valid 0x40#32 = false ∧ (1#4 : RegIndex) ≠ 15#4 ∧
      (2#4 : RegIndex) ≠ 15#4 ∧ 16 ≤ (0x10#32 : Word).toNat) ∧
    let faulting : Behaviour :=
      .regSet 1#4 7#32 (.flagSet .Z true (.busWrite 0x3C#32 5#32 (.busWrite fixture.ioAddr 0x41#32
        (.busWrite 0x40#32 9#32 (.regSet 2#4 9#32 .done)))))
    Config.decode { fixture with decode := fun _ => { cond := 0b1111#4, exec := faulting, text := "T" } } 0x10#32 =
      { cond := 0b1111#4, exec := faulting, text := "T" } :=
  ⟨by decide, rfl⟩

/-- BehaviourFrame: a behaviour that writes register 1, flag Z and the word at 8, and no other, and reads no sentinel:
each clause's condition holds of another register, flag and byte. -/
theorem witness_frame :
    let ops := performedOps fixture (.regSet 1#4 7#32 (.flagSet .Z true (.busWrite 8#32 5#32 .done))) (fresh [])
    ops = [.regSet 1#4 7#32, .flagSet .Z true, .busWrite 8#32 5#32] ∧
    (fresh []).mem.wf = true ∧
    (∀ op ∈ ops, op.storesTo fixture (fresh []).mem 7 = false) ∧
    (∀ op ∈ ops, op.storesTo fixture (fresh []).mem 12 = false) ∧
    Op.busRead fixture.ioAddr ∉ ops := by decide

/-- InstructionFrame: a GUARD word, and a condition row that fails, answer next states with no operations. -/
theorem witness_instruction_frame :
    exec (.guard 5#4) (fresh []) = .next { fresh [] with halted := true, diag := [.reservedLowValueGuard] } ∧
    instrOps (.guard 5#4) (fresh []) = [] ∧
    exec .cond14 (fresh []) = .next (fresh []) ∧ instrOps .cond14 (fresh []) = [] ∧
    (fresh []).mem.wf = true ∧ (1#4 : RegIndex) ≠ 15#4 :=
  ⟨rfl, rfl, rfl, rfl, by decide, by decide⟩

/-- InstructionFrame's clause for any decoder: `LI r1, 7` does not write register 15, and a word that fails performs
nothing. -/
theorem witness_frame_pc :
    (∀ v, Op.regSet 15#4 v ∉ performedOps fixture (fixture.decode 0xF1100007#32).exec
      (traceText fixture "T" (setCurrent 0xF1100007#32 (advance (fresh []))))) ∧
    16 ≤ (0xF1100007#32 : Word).toNat ∧ condPass (fixture.decode 0xE1F00007#32).cond (fresh []).flags = false := by
  refine ⟨fun v h => ?_, by decide, by decide⟩
  have hops : performedOps fixture (fixture.decode 0xF1100007#32).exec
      (traceText fixture "T" (setCurrent 0xF1100007#32 (advance (fresh [])))) = [.regSet 1#4 7#32] := by decide
  rw [hops, List.mem_singleton] at h
  simp only [Op.regSet.injEq] at h
  exact absurd h.1 (by decide)

/-- InstructionFrame's EXT clauses: an EXT word answers a next state in every state. -/
theorem witness_ext_next (w : Word) : ∃ t, exec (.ext w) (fresh []) = .next t := ⟨_, rfl⟩

/-- ResetHasTheInvariant, ResetLoadsTheImage, ResetSizeWarningAndRegister14: legal arguments, an image that is larger
than, equal to and smaller than the configured memory. -/
theorem witness_reset_args :
    resetArgsWf 4 [1#32, 2#32] = true ∧ 4 < 4 * [1#32, 2#32].length ∧
    resetArgsWf 8 [1#32, 2#32] = true ∧ 4 * [1#32, 2#32].length ≤ 8 ∧
    resetArgsWf (2 ^ 31) [] = true ∧ resetArgsWf 0 [] = true ∧ 1 < [1#32, 2#32].length := by decide

/-- OutputsAndCurAreNeverRead: two states that differ in the outputs and in `cur`. -/
theorem witness_unobserved :
    let s := fresh []
    let s' : State := { fresh [] with out := [1#8], diag := [.imageTooLarge], trace := ["T"], cur := some 16#32 }
    s.wait = none ∧ s ≠ s' ∧ s.unobserved = s'.unobserved ∧ (∃ t, step s = .next t) ∧ ∃ t', step s' = .next t' := by
  exact ⟨rfl, by decide, rfl, ⟨_, step_eq_engineLoop _⟩, ⟨_, step_eq_engineLoop _⟩⟩

/-- VerboseChangesTheTraceOnly: two states that differ in the trace. -/
theorem witness_traces :
    let s := fresh []
    let s' : State := { fresh [] with trace := ["T"] }
    s ≠ s' ∧ ({ s with trace := [] } : State) = { s' with trace := [] } := by decide

/-- CharactersAreDeliveredInOrder: the reads of a pass whose behaviour takes a character, finds none, and of a pass
whose fetch takes one. -/
theorem witness_pass_reads :
    passReads fixture { fresh [0xF310FFFC#32] with kbd := [0x41#8] } = [{ queued := true, answer := 0x41#32 }] ∧
    passReads fixture (fresh [0xF310FFFC#32]) = [{ queued := false, answer := 0#32 }] ∧
    passReads fixture { freshAt [] 0xFFFFFFFC#32 with kbd := [0x05#8, 0x41#8] } = [{ queued := true, answer := 5#32 }] := by
  decide

/-- DegenerateResets: the smallest memory that holds a word. -/
theorem witness_smallest_memory : 4 ≤ 4 := by decide

/-- BlockingReadHoldsTheEngine: the fetch clause, and the behaviour clause held at a read of the sentinel. -/
theorem witness_blocking :
    let f : State := { freshAt [] 0xFFFFFFFC#32 with wait := some .fetch }
    let b : State := { fresh [] with cur := some 0xF310FFFC#32, wait := some (.behaviour [.word 0#32]) }
    (blockingFixture.kbdStrategy = .blocking ∧ f.kbd = [] ∧ f.env = [] ∧ f.halted = false ∧
      f.pc = blockingFixture.ioAddr ∧ f.wait = some .fetch) ∧
    b.kbd = [] ∧ b.env = [] ∧ b.halted = false ∧ b.cur = some 0xF310FFFC#32 ∧
    b.wait = some (.behaviour [.word 0#32]) ∧
    (blockingFixture.decode 0xF310FFFC#32).exec.afterAnswers [.word 0#32] =
      .busRead blockingFixture.ioAddr fun v => .regSet 1#4 v .done :=
  ⟨⟨rfl, rfl, rfl, rfl, rfl, rfl⟩, rfl, rfl, rfl, rfl, rfl, rfl⟩

/-- HeldBehaviourGoesOnAsIfNotHeld: `LDW r1, -4(r0)` held at its read. -/
theorem witness_held :
    let s : State := { fresh [] with cur := some 0xF310FFFC#32 }
    s.wait = none ∧ s.env = [] ∧ s.halted = false ∧ s.cur = some 0xF310FFFC#32 ∧
    (runBehaviour blockingFixture (blockingFixture.decode 0xF310FFFC#32).exec [] s).wait =
      some (.behaviour [.word 0#32]) := by decide

end Sys2Proof.Tests
end

section
/-! PROOFS. The register file (10_state.md R21, R22): the written register reads the value, register 0 is a constant 0,
and a register write leaves the rest of the state alone. -/

namespace Sys2Proof.Machine

theorem State.reg_setReg_same {s : State} {i : RegIndex} (v : Word) (h : i ≠ 0#4) : (s.setReg i v).reg i = v := by
  rw [State.reg_setReg, if_neg h, if_pos rfl]

/-- The frame of a register write as one equation between states, for all the fields other than `regs` at once. -/
theorem State.setReg_eq_with_regs (s : State) (i : RegIndex) (v : Word) :
    s.setReg i v = { s with regs := (s.setReg i v).regs } := by
  by_cases h : i = 0#4
  · rw [h, State.setReg_zero]
  · rw [State.setReg, if_neg h]

/-- Settles O4, from the equation for a read after a write and the frame of a write. -/
theorem registerWriteIsReadBackExceptZero : Obligations.RegisterWriteIsReadBackExceptZero := by
  intro s i v
  exact ⟨State.reg_setReg_same v, State.reg_zero _, State.setReg_zero s v, fun _ => State.reg_setReg_of_ne v,
    State.setReg_eq_with_regs s i v⟩

end Sys2Proof.Machine
end

section
/-! PROOFS. The memory bus (20_memory.md sections 1 to 4): which of its three ends an access has, as an equation per
kind of address (valid, neither valid nor the sentinel, the sentinel), and the statements that follow. -/

namespace Sys2Proof.Machine

/-! ### The bytes of a word put together from bytes (R55) -/

/-- The four bytes of a word joined from bytes, in the bit numbering of R55. -/
theorem extractLsb'_joinBytes (b0 b1 b2 b3 : Byte) :
    (joinBytes b0 b1 b2 b3).extractLsb' 24 8 = b0 ∧ (joinBytes b0 b1 b2 b3).extractLsb' 16 8 = b1 ∧
    (joinBytes b0 b1 b2 b3).extractLsb' 8 8 = b2 ∧ (joinBytes b0 b1 b2 b3).extractLsb' 0 8 = b3 := by
  refine ⟨?_, ?_, ?_, ?_⟩ <;> simp [joinBytes, BitVec.extractLsb'_append_eq_ite (w := 8)]

/-! ### The validity test (R54) -/

/-- A pattern whose bit 31 is clear is its own signed reading; one whose bit 31 is set reads negative. -/
theorem Memory.valid_iff_toInt (m : Memory) (addr : Word) :
    m.valid addr = true ↔ addr.toInt % 4 = 0 ∧ 0 ≤ addr.toInt ∧ addr.toInt + 3 < m.size := by
  rw [Memory.valid_iff, BitVec.toInt_eq_msb_cond]
  have hlt := addr.isLt
  cases addr.msb with
  | false => simp only [true_and, Bool.false_eq_true, if_false]; omega
  | true => simp only [Bool.true_eq_false, false_and, if_true, false_iff]; omega

theorem Memory.valid_iff_of_wf {m : Memory} (h : m.wf = true) (addr : Word) :
    m.valid addr = true ↔ ∃ k, addr.toNat = 4 * k ∧ 4 * k < m.size := by
  obtain ⟨-, hmod, hmax⟩ := (Memory.wf_iff m).1 h
  rw [Memory.valid_iff, BitVec.msb_eq_decide, decide_eq_false_iff_not]
  constructor
  · rintro ⟨-, haligned, hinside⟩
    exact ⟨addr.toNat / 4, by omega, by omega⟩
  · rintro ⟨k, haddr, hinside⟩
    omega

/-! ### The equations of the two accesses -/

theorem isIoAddr_ioAddr (c : Config) : isIoAddr c c.ioAddr = true := (isIoAddr_iff c _).2 rfl

theorem isIoAddr_of_ne {c : Config} {addr : Word} (h : addr ≠ c.ioAddr) : isIoAddr c addr = false :=
  Bool.eq_false_iff.2 (mt (isIoAddr_iff c addr).1 h)

theorem memRead_of_valid {c : Config} {addr : Word} {s : State} (h : s.mem.valid addr = true) :
    memRead c addr s = .completed (s.mem.readWord addr.toNat) s := by
  simp [memRead, valid_imp_not_isIoAddr h, h]

theorem memWrite_of_valid {c : Config} {addr : Word} {s : State} (h : s.mem.valid addr = true) (v : Word) :
    memWrite c addr v s = .completed () { s with mem := s.mem.writeWord addr.toNat v } := by
  simp [memWrite, valid_imp_not_isIoAddr h, h]

theorem memRead_of_invalid {c : Config} {addr : Word} {s : State} (hio : addr ≠ c.ioAddr)
    (h : s.mem.valid addr = false) : memRead c addr s = .faulted (raiseAddressFault s) := by
  simp [memRead, isIoAddr_of_ne hio, h]

theorem memWrite_of_invalid {c : Config} {addr : Word} {s : State} (hio : addr ≠ c.ioAddr)
    (h : s.mem.valid addr = false) (v : Word) : memWrite c addr v s = .faulted (raiseAddressFault s) := by
  simp [memWrite, isIoAddr_of_ne hio, h]

theorem memRead_ioAddr {c : Config} {s t : State} {b : Byte} (h : kbdRead c s = some (b, t)) :
    memRead c c.ioAddr s = .completed (b.setWidth 32) t := by
  simp [memRead, isIoAddr_ioAddr, h]

theorem memWrite_ioAddr (c : Config) (v : Word) (s : State) :
    memWrite c c.ioAddr v s = .completed () (charOut (v.extractLsb' 0 8) s) := by
  simp [memWrite, isIoAddr_ioAddr]

/-- Away from the sentinel a read completes exactly at the valid addresses (R54, R60). -/
theorem memRead_completes_iff {c : Config} {addr : Word} (hio : addr ≠ c.ioAddr) (s : State) :
    (∃ w t, memRead c addr s = .completed w t) ↔ s.mem.valid addr = true := by
  constructor
  · rintro ⟨w, t, h⟩
    by_contra hv
    rw [memRead_of_invalid hio (Bool.eq_false_iff.2 hv)] at h
    cases h
  · exact fun h => ⟨_, _, memRead_of_valid h⟩

/-- Away from the sentinel a write completes exactly at the valid addresses (R54, R60). -/
theorem memWrite_completes_iff {c : Config} {addr : Word} (hio : addr ≠ c.ioAddr) (v : Word) (s : State) :
    (∃ t, memWrite c addr v s = .completed () t) ↔ s.mem.valid addr = true := by
  constructor
  · rintro ⟨t, h⟩
    by_contra hv
    rw [memWrite_of_invalid hio (Bool.eq_false_iff.2 hv)] at h
    cases h
  · exact fun h => ⟨_, memWrite_of_valid h v⟩

/-- The fetch gets a word exactly when the read at the program counter does (R111). -/
theorem fetch_eq_fetched_iff (c : Config) (s : State) (w : Word) (t : State) :
    fetch c s = .fetched w t ↔ memRead c s.pc s = .completed w t := by
  rcases fetch_cases c s with ⟨w', t', hr, hf⟩ | ⟨hr, hf⟩ | ⟨hr, hf⟩ <;> simp [hr, hf]

/-- The fetch at an address that is neither the sentinel nor valid (R61). -/
theorem fetch_of_invalid {c : Config} {s : State} (hio : s.pc ≠ c.ioAddr) (h : s.mem.valid s.pc = false) :
    fetch c s = .settled (raiseAddressFault s) := by
  simp [fetch, memRead_of_invalid hio h]

/-! ### The keyboard (43_char_io.md R193) -/

theorem kbdRead_of_cons {c : Config} {s : State} {b : Byte} {rest : List Byte} (h : s.kbd = b :: rest) :
    kbdRead c s = some (b, { s with kbd := rest }) := by
  simp [kbdRead, h]

theorem kbdRead_of_nil {c : Config} {s : State} (hc : c.kbdStrategy = .buffered) (h : s.kbd = []) :
    kbdRead c s = some (0#8, s) := by
  simp [kbdRead, hc, h]

theorem memRead_ioAddr_of_cons {c : Config} {s : State} {b : Byte} {rest : List Byte} (h : s.kbd = b :: rest) :
    memRead c c.ioAddr s = .completed (b.setWidth 32) { s with kbd := rest } :=
  memRead_ioAddr (kbdRead_of_cons h)

/-- What the sentinel answers is a character, zero-extended (R58). -/
theorem memRead_ioAddr_le {c : Config} {v : Word} {s t : State} (h : memRead c c.ioAddr s = .completed v t) :
    v.toNat ≤ 255 := by
  rcases memRead_completed h with ⟨-, b, -, rfl⟩ | ⟨hio, -⟩
  · rw [BitVec.toNat_setWidth]; omega
  · rw [isIoAddr_ioAddr] at hio; cases hio

/-- A read away from the sentinel changes nothing (R55). -/
theorem memRead_state_of_ne {c : Config} {addr v : Word} {s t : State} (hio : addr ≠ c.ioAddr)
    (h : memRead c addr s = .completed v t) : t = s := by
  rcases memRead_completed h with ⟨hio', -⟩ | ⟨-, -, -, ht⟩
  · exact absurd ((isIoAddr_iff c addr).1 hio') hio
  · exact ht

/-- A bus write takes no character (R58). -/
theorem memWrite_kbd {c : Config} {addr v : Word} {s t : State} {u : Unit} (h : memWrite c addr v s = .completed u t) :
    t.kbd = s.kbd :=
  (congrArg State.kbd (memWrite_frame h).1 :)

/-! ### The statements -/

/-- Settles O30, from the two readings of the validity test and from which accesses it lets complete. -/
theorem validAddressesAreAlignedAndInside : Obligations.ValidAddressesAreAlignedAndInside := by
  intro m addr
  refine ⟨m.valid_iff_toInt addr, fun hwf => Memory.valid_iff_of_wf hwf addr, ?_⟩
  rintro c s v rfl hio
  refine ⟨memRead_completes_iff hio s, memWrite_completes_iff hio v s, ?_⟩
  rintro rfl
  simp only [fetch_eq_fetched_iff]
  exact memRead_completes_iff hio s

/-- Settles O31: the word read is the join of the four bytes. -/
theorem busReadIsBigEndian : Obligations.BusReadIsBigEndian := by
  intro c s addr hvalid
  obtain ⟨h0, h1, h2, h3⟩ := extractLsb'_joinBytes (s.mem.byte addr.toNat) (s.mem.byte (addr.toNat + 1))
    (s.mem.byte (addr.toNat + 2)) (s.mem.byte (addr.toNat + 3))
  refine ⟨_, memRead_of_valid hvalid, h0, h1, h2, h3, ?_⟩
  rintro rfl
  exact fetch_of_valid hvalid

/-- Settles O32, from what a byte reads after a word was stored. -/
theorem busWriteStoresFourBytes : Obligations.BusWriteStoresFourBytes := by
  intro c s addr v hwf hvalid
  obtain ⟨-, -, hinside⟩ := (Memory.valid_iff _ _).1 hvalid
  have hbyte := Memory.byte_writeWord hwf hinside v
  refine ⟨_, memWrite_of_valid hvalid v, by simp [hbyte, wordByte], by simp [hbyte, wordByte],
    by simp [hbyte, wordByte], by simp [hbyte, wordByte], fun x hx => ?_, Memory.writeWord_size _ _ _⟩
  have houtside : x ≠ addr.toNat ∧ x ≠ addr.toNat + 1 ∧ x ≠ addr.toNat + 2 ∧ x ≠ addr.toNat + 3 := by omega
  simp [hbyte, houtside]

/-- Settles O34. A behaviour meets the fault after the environment's turn, which touches neither memory nor the
diagnostics. -/
theorem invalidAccessFaultsAndAbandonsItsCaller : Obligations.InvalidAccessFaultsAndAbandonsItsCaller := by
  intro c s addr v answers kr kw hio hinvalid
  have hturn : (envTurn s).mem.valid addr = false := by rw [envTurn_mem, hinvalid]
  have hraise : raiseAddressFault (envTurn s) =
      { envTurn s with halted := true, diag := s.diag ++ [.addressFault] } := by
    rw [← envTurn_diag s]; rfl
  refine ⟨memRead_of_invalid hio hinvalid, memWrite_of_invalid hio hinvalid v, ?_, ?_, ?_⟩
  · rintro rfl
    exact fetch_of_invalid hio hinvalid
  · simp only [runBehaviour, memRead_of_invalid hio hturn, hraise]
  · simp only [runBehaviour, memWrite_of_invalid hio hturn, hraise]

/-- Settles O36: at the sentinel a bus read is a keyboard read, and elsewhere it changes nothing. -/
theorem sentinelReadTakesOneCharacter : Obligations.SentinelReadTakesOneCharacter := by
  intro c s hbuffered
  refine ⟨fun h => ?_, fun b rest h => ⟨kbdRead_of_cons h, memRead_ioAddr_of_cons h⟩,
    fun b b' rest h => ⟨_, memRead_ioAddr_of_cons h, memRead_ioAddr_of_cons rfl⟩,
    fun v t => memRead_ioAddr_le, fun addr v t hio h => ?_, fun addr v t => memWrite_kbd⟩
  · have hzero := kbdRead_of_nil hbuffered h
    exact ⟨hzero, memRead_ioAddr hzero⟩
  · rw [memRead_state_of_ne hio h]

/-- Settles O37. -/
theorem sentinelWriteEmitsTheLowByte : Obligations.SentinelWriteEmitsTheLowByte :=
  fun c s v => memWrite_ioAddr c v s

end Sys2Proof.Machine
end

section
/-! PROOFS. The engine cycle (40_engine_cycle.md section 1): what a step does once its boundary is known, the fetch at a
boundary of a running machine, the guard, and the cycle whose condition fails. -/

namespace Sys2Proof.Machine

/-! ### A step by what its boundary found (R110) -/

theorem step_of_settled {s t : State} (h : boundary params s = .settled t) : step s = .next t := by
  simp only [step, h]

theorem step_of_fetched {s t : State} {w : Word} (h : boundary params s = .fetched w t) :
    step s = exec (decodeWord w) t := by
  simp only [step, h]

/-! ### Halting events and the guard as record updates (R112, R219) -/

theorem haltWith_some (cause : Diag) (s : State) :
    haltWith (some cause) s = { s with halted := true, diag := s.diag ++ [cause] } := rfl

/-- The environment reports nothing, so a fault after its turn appends to the diagnostics from before it. -/
theorem raiseAddressFault_envTurn (s : State) :
    raiseAddressFault (envTurn s) = { envTurn s with halted := true, diag := s.diag ++ [.addressFault] } := by
  rw [raiseAddressFault, haltWith_some, envTurn_diag]

theorem decodeWord_of_lt {w : Word} (h : w.toNat < 16) : decodeWord w = .guard (w.extractLsb' 0 4) := if_pos h

theorem exec_guard (low : BitVec 4) (s : State) :
    exec (.guard low) s = .next { s with halted := true, diag := s.diag ++ [.reservedLowValueGuard] } := rfl

/-! ### The cycle of an EXT word whose condition fails (R115) -/

/-- Steps 3 and 4 as one record update: what a failed condition leaves (R113, R114). -/
theorem setCurrent_advance (w : Word) (s : State) :
    setCurrent w (advance s) = { s with regs := s.regs.set 15 (s.pc + 4#32), cur := some w } := rfl

theorem cycleWord_of_condPass_false {c : Config} {w : Word} {s : State} (hw : 16 ≤ w.toNat)
    (hfail : condPass (c.decode w).cond s.flags = false) : cycleWord c w s = setCurrent w (advance s) := by
  simp [cycleWord, Nat.not_lt.2 hw, hfail]

/-! ### The statements -/

/-- Settles O25: at such a boundary the step is the fetch, and the environment's turn moves neither the program counter
nor memory. -/
theorem fetchReadsAtThePcAndAFaultKeepsIt : Obligations.FetchReadsAtThePcAndAFaultKeepsIt := by
  intro s hrunning hboundary hnostop
  have hfetch : boundary params s = fetch params (envTurn s) := boundary_of_running hrunning hboundary hnostop
  constructor
  · intro w t hread
    have hfetched : boundary params s = .fetched w t := by
      rw [hfetch, fetch_eq_fetched_iff, pc_envTurn, hread]
    exact ⟨hfetched, step_of_fetched hfetched⟩
  · intro hio hinvalid
    have hsettled : boundary params s = .settled (raiseAddressFault (envTurn s)) := by
      rw [hfetch]
      exact fetch_of_invalid (by rwa [pc_envTurn]) (by rwa [pc_envTurn, envTurn_mem])
    rw [step_of_settled hsettled, raiseAddressFault_envTurn]

/-- Settles O18: a fetched word below 16 decodes to GUARD, whose meaning is the halting event alone. -/
theorem guardWordHaltsBeforeTheAdvance : Obligations.GuardWordHaltsBeforeTheAdvance := by
  refine ⟨exec_guard, fun s t w hfetched hlow => ?_⟩
  rw [step_of_fetched hfetched, decodeWord_of_lt hlow, exec_guard]

/-- Settles O21: the cycle is then the advance and the decode, and the decode writes no register. -/
theorem failedConditionEndsTheCycle : Obligations.FailedConditionEndsTheCycle := by
  intro c w s hw hfail
  rw [cycleWord_of_condPass_false hw hfail]
  refine ⟨setCurrent_advance w s, ?_, fun i hi => ?_⟩
  · rw [pc_setCurrent, advance_pc]
  · rw [reg_setCurrent, reg_advance_of_ne s hi]

end Sys2Proof.Machine
end

section
/-! PROOFS. The condition evaluator (41_condition_codes.md section 1): a condition code as a selector with a negation
bit below it. -/

namespace Sys2Proof.Machine

/-- Bit 0 of a code is its negation bit (R140). -/
theorem getLsbD_zero_append (sel : BitVec 3) (neg : BitVec 1) : (sel ++ neg).getLsbD 0 = decide (neg = 1#1) := by
  rw [BitVec.getLsbD_append, if_pos Nat.one_pos]
  obtain rfl | rfl := BitVec.eq_zero_or_eq_one neg
  · rfl
  · rfl

/-- R140 for a code given by its two fields. -/
theorem condPass_append (sel : BitVec 3) (neg : BitVec 1) (fl : Flags) :
    condPass (sel ++ neg) fl = if neg = 1#1 then !condBase sel fl else condBase sel fl := by
  simp only [condPass, getLsbD_zero_append, BitVec.extractLsb'_append_eq_left, decide_eq_true_eq]

/-- Settles O8: bits 3 to 1 of the code are the selector and bit 0 the negation bit; the base predicates are the rows of
`condBase`. -/
theorem conditionEvaluatorIsBaseAndNegation : Obligations.ConditionEvaluatorIsBaseAndNegation := fun sel neg fl =>
  ⟨condPass_append sel neg fl, rfl, rfl, rfl, rfl, rfl, rfl, rfl, rfl⟩

end Sys2Proof.Machine
end

section
/-! PROOFS. Reset (70_reset_and_hazards.md section 1): the size of memory, register 14 and the warning, an equation
each. -/

namespace Sys2Proof.Machine

/-- The legal reset arguments (00_scope.md R9). -/
theorem resetArgsWf_iff (memCfg : Nat) (image : List Word) :
    resetArgsWf memCfg image = true ↔ memCfg % 4 = 0 ∧ memCfg ≤ 2 ^ 31 ∧ 4 * image.length ≤ 2 ^ 31 := by
  simp [resetArgsWf, and_assoc]

/-! ### What reset gives each field, for any arguments (R251, R253) -/

theorem State.resetWith_mem_size (memCfg : Nat) (image : List Word) :
    (State.resetWith memCfg image).mem.size = max memCfg (4 * image.length) :=
  Memory.load_size image _ 0

theorem State.resetWith_reg_fourteen (memCfg : Nat) (image : List Word) :
    (State.resetWith memCfg image).reg 14#4 = BitVec.ofNat 32 (max memCfg (4 * image.length)) := rfl

theorem State.resetWith_halted (memCfg : Nat) (image : List Word) :
    (State.resetWith memCfg image).halted = false := rfl

theorem State.resetWith_diag_of_lt {memCfg : Nat} {image : List Word} (h : memCfg < 4 * image.length) :
    (State.resetWith memCfg image).diag = [.imageTooLarge] := if_pos h

theorem State.resetWith_diag_of_le {memCfg : Nat} {image : List Word} (h : 4 * image.length ≤ memCfg) :
    (State.resetWith memCfg image).diag = [] := if_neg (Nat.not_lt.2 h)

/-- For legal arguments the size fits in a register, so register 14 holds it unreduced (R253). -/
theorem State.resetWith_reg_fourteen_toNat {memCfg : Nat} {image : List Word}
    (h : resetArgsWf memCfg image = true) :
    ((State.resetWith memCfg image).reg 14#4).toNat = (State.resetWith memCfg image).mem.size := by
  obtain ⟨-, hcfg, himage⟩ := (resetArgsWf_iff memCfg image).1 h
  have hfits : max memCfg (4 * image.length) < 2 ^ 32 := by omega
  rw [State.resetWith_reg_fourteen, State.resetWith_mem_size, BitVec.toNat_ofNat, Nat.mod_eq_of_lt hfits]

/-- Settles O53, from the equations of the fields; six words in 16 bytes are an instance of them. -/
theorem resetSizeWarningAndRegister14 : Obligations.ResetSizeWarningAndRegister14 := by
  constructor
  · intro memCfg image hlegal
    exact ⟨State.resetWith_mem_size memCfg image, State.resetWith_reg_fourteen_toNat hlegal,
      State.resetWith_halted memCfg image, State.resetWith_diag_of_lt, State.resetWith_diag_of_le⟩
  · intro w0 w1 w2 w3 w4 w5
    have hlarger : 16 < 4 * [w0, w1, w2, w3, w4, w5].length := by simp
    exact ⟨State.resetWith_mem_size 16 _, State.resetWith_reg_fourteen 16 _, State.resetWith_diag_of_lt hlarger⟩

end Sys2Proof.Machine
end

section
/-! PROOFS. Memory and the sentinel (20_memory.md sections 1 to 3 and 6, 10_state.md section 6): words written and read
back, the canonical form, and what the sentinel is. -/

namespace Sys2Proof.Machine

/-! ### Bytes and words after a word was stored (R55, R56) -/

theorem Memory.byte_writeWord_inside {m : Memory} (h : m.wf = true) {a : Nat} (ha : a + 3 < m.size) (v : Word) {j : Nat}
    (hj : j < 4) : (m.writeWord a v).byte (a + j) = wordByte v j := by
  rw [Memory.byte_writeWord h ha]
  obtain rfl | rfl | rfl | rfl : j = 0 ∨ j = 1 ∨ j = 2 ∨ j = 3 := by omega
  all_goals simp

theorem Memory.byte_writeWord_outside {m : Memory} (h : m.wf = true) {a : Nat} (ha : a + 3 < m.size) (v : Word)
    {x : Nat} (hx : x < a ∨ a + 4 ≤ x) : (m.writeWord a v).byte x = m.byte x := by
  have hne : x ≠ a ∧ x ≠ a + 1 ∧ x ≠ a + 2 ∧ x ≠ a + 3 := by omega
  simp [Memory.byte_writeWord h ha, hne]

theorem Memory.readWord_writeWord_same {m : Memory} (h : m.wf = true) {a : Nat} (ha : a + 3 < m.size) (v : Word) :
    (m.writeWord a v).readWord a = v := by
  have hinside := fun {j} => Memory.byte_writeWord_inside h ha v (j := j)
  have hzero : (m.writeWord a v).byte a = wordByte v 0 := hinside (j := 0) (by omega)
  rw [Memory.readWord, hzero, hinside (by omega), hinside (by omega), hinside (by omega), joinBytes_wordByte]

/-- Two aligned words at different addresses share no byte. -/
theorem Memory.readWord_writeWord_of_ne {m : Memory} (h : m.wf = true) {a b : Nat} (ha : a + 3 < m.size)
    (ha4 : a % 4 = 0) (hb4 : b % 4 = 0) (hab : b ≠ a) (v : Word) : (m.writeWord a v).readWord b = m.readWord b := by
  have houtside : ∀ j < 4, (m.writeWord a v).byte (b + j) = m.byte (b + j) := fun j hj =>
    Memory.byte_writeWord_outside h ha v (by omega)
  have hzero : (m.writeWord a v).byte b = m.byte b := houtside 0 (by omega)
  rw [Memory.readWord, Memory.readWord, hzero, houtside 1 (by omega), houtside 2 (by omega), houtside 3 (by omega)]

/-- A store changes no size, so it makes no address valid or invalid. -/
theorem Memory.valid_writeWord (m : Memory) (a : Nat) (v addr : Word) :
    (m.writeWord a v).valid addr = m.valid addr := rfl

/-- Settles O33. -/
theorem writeThenReadRoundTrip : Obligations.WriteThenReadRoundTrip := by
  intro c s addr v hwf hvalid
  obtain ⟨-, hmod, hinside⟩ := (Memory.valid_iff _ _).1 hvalid
  have hread : ∀ other, s.mem.valid other = true →
      memRead c other { s with mem := s.mem.writeWord addr.toNat v } =
        .completed ((s.mem.writeWord addr.toNat v).readWord other.toNat)
          { s with mem := s.mem.writeWord addr.toNat v } :=
    fun other hother => memRead_of_valid (by rwa [Memory.valid_writeWord])
  refine ⟨_, memWrite_of_valid hvalid v, ?_, fun other hother hne => ⟨_, memRead_of_valid hother, ?_⟩⟩
  · rw [hread addr hvalid, Memory.readWord_writeWord_same hwf hinside]
  · obtain ⟨-, hmod', -⟩ := (Memory.valid_iff _ _).1 hother
    have hne' : other.toNat ≠ addr.toNat := fun h => hne (BitVec.eq_of_toNat_eq h)
    rw [hread other hother, Memory.readWord_writeWord_of_ne hwf hinside hmod hmod' hne']

/-! ### The canonical form (10_state.md section 6) -/

theorem lookupCell_cons_same (k : Nat) (v : Byte) (rest : List Host.Cell) : lookupCell k ((k, v) :: rest) = v :=
  if_pos rfl

theorem canonicalCells_cons {hi lo k : Nat} {v : Byte} {rest : List Host.Cell} :
    canonicalCells hi lo ((k, v) :: rest) = true ↔
      lo ≤ k ∧ k < hi ∧ v ≠ unlisted ∧ canonicalCells hi (k + 1) rest = true := by
  simp [canonicalCells, and_assoc]

/-- The first listed address of one list is listed in the other: nothing below its first address is. -/
theorem le_of_lookupCell_eq {hi k k' : Nat} {v v' : Byte} {rest rest' : List Host.Cell} (hv : v ≠ unlisted)
    (h' : canonicalCells hi k' ((k', v') :: rest') = true)
    (heq : lookupCell k ((k, v) :: rest) = lookupCell k ((k', v') :: rest')) : k' ≤ k := by
  by_contra hlt
  rw [lookupCell_cons_same, lookupCell_below h' (Nat.not_le.1 hlt)] at heq
  exact hv heq

/-- A canonical list is determined by what it gives each address. -/
theorem canonicalCells_ext {hi : Nat} {cells cells' : List Host.Cell} {lo lo' : Nat}
    (h : canonicalCells hi lo cells = true) (h' : canonicalCells hi lo' cells' = true)
    (heq : ∀ x, lookupCell x cells = lookupCell x cells') : cells = cells' := by
  induction cells generalizing lo lo' cells' with
  | nil =>
    cases cells' with
    | nil => rfl
    | cons cell rest =>
      obtain ⟨k, v⟩ := cell
      obtain ⟨-, -, hv, -⟩ := canonicalCells_cons.1 h'
      exact absurd ((lookupCell_cons_same k v rest).symm.trans (heq k).symm) hv
  | cons cell rest ih =>
    obtain ⟨k, v⟩ := cell
    obtain ⟨-, hk, hv, hrest⟩ := canonicalCells_cons.1 h
    cases cells' with
    | nil => exact absurd ((lookupCell_cons_same k v rest).symm.trans (heq k)) hv
    | cons cell' rest' =>
      obtain ⟨k', v'⟩ := cell'
      obtain ⟨-, hk', hv', hrest'⟩ := canonicalCells_cons.1 h'
      obtain rfl : k = k' := Nat.le_antisymm
        (le_of_lookupCell_eq hv' (canonicalCells_cons.2 ⟨le_refl _, hk, hv, hrest⟩) (heq k').symm)
        (le_of_lookupCell_eq hv (canonicalCells_cons.2 ⟨le_refl _, hk', hv', hrest'⟩) (heq k))
      obtain rfl : v = v' := by simpa only [lookupCell_cons_same] using heq k
      congr 1
      refine ih hrest hrest' fun x => ?_
      by_cases hx : k = x
      · rw [lookupCell_below hrest (by omega), lookupCell_below hrest' (by omega)]
      · simpa [lookupCell, hx] using heq x

/-- Settles O39: outside memory both read as unlisted. -/
theorem equalBytesAreEqualMemory : Obligations.EqualBytesAreEqualMemory := by
  intro m m' hwf hwf' hsize hbytes
  obtain ⟨hcells, -, -⟩ := (Memory.wf_iff m).1 hwf
  obtain ⟨hcells', -, -⟩ := (Memory.wf_iff m').1 hwf'
  rw [← hsize] at hcells'
  have hall : ∀ x, lookupCell x m.cells = lookupCell x m'.cells := by
    intro x
    by_cases hx : x < m.size
    · exact hbytes x hx
    · rw [lookupCell_beyond hcells (Nat.not_lt.1 hx), lookupCell_beyond hcells' (Nat.not_lt.1 hx)]
  rw [show m = ⟨m.size, m.cells⟩ from rfl, canonicalCells_ext hcells hcells' hall, hsize]

/-! ### The sentinel (R57 to R59) -/

theorem ne_ioAddr_of_isIoAddr_false {c : Config} {addr : Word} (h : isIoAddr c addr = false) : addr ≠ c.ioAddr := by
  rintro rfl
  rw [isIoAddr_ioAddr] at h
  cases h

theorem ioAddr_msb (c : Config) : c.ioAddr.msb = true := by
  have hio := isIoAddr_ioAddr c
  rw [isIoAddr, Bool.and_eq_true] at hio
  exact hio.1

theorem Memory.valid_of_msb {m : Memory} {addr : Word} (h : addr.msb = true) : m.valid addr = false := by
  simp [Memory.valid, h]

theorem ne_ioAddr_of_msb {c : Config} {addr : Word} (h : addr.msb = false) : addr ≠ c.ioAddr := by
  rintro rfl
  rw [ioAddr_msb] at h
  cases h

/-- The output has no part in a keyboard read. -/
theorem kbdRead_charOut {c : Config} {s t : State} {b : Byte} (y : Byte) (h : kbdRead c s = some (b, t)) :
    kbdRead c (charOut y s) = some (b, charOut y t) := by
  rcases kbdRead_cases h with ⟨hkbd, ht⟩ | ⟨hkbd, hbuffered, rfl, rfl⟩
  · rw [kbdRead_of_cons (s := charOut y s) hkbd, ht]
    rfl
  · exact kbdRead_of_nil hbuffered hkbd

/-- Settles O35. -/
theorem sentinelIsOneAddressAndNeverFaults : Obligations.SentinelIsOneAddressAndNeverFaults := by
  intro c s t v
  refine ⟨ioAddr_msb c, Memory.valid_of_msb (ioAddr_msb c),
    fun hfault => ne_ioAddr_of_isIoAddr_false (memRead_faulted hfault).1 rfl,
    ⟨_, memWrite_ioAddr c v s, rfl, rfl, fun x r hread => ?_⟩, fun addr hmsb hne => ?_⟩
  · rcases memRead_completed hread with ⟨-, b, hk, rfl⟩ | ⟨hio, -⟩
    · exact ⟨_, memRead_ioAddr (kbdRead_charOut _ hk), rfl⟩
    · rw [isIoAddr_ioAddr] at hio; cases hio
  · exact ⟨memRead_of_invalid hne (Memory.valid_of_msb hmsb), memWrite_of_invalid hne (Memory.valid_of_msb hmsb) v⟩

end Sys2Proof.Machine
end

section
/-! PROOFS. Behaviours, operation by operation (42_execute_interface.md section 2): what one operation can leave, the
chain of them that a run is, and the frames that follow by induction on that chain. -/

namespace Sys2Proof.Machine

/-! ### The environment's turns (20_memory.md R70) -/

/-- One turn takes at most one batch off the schedule. -/
theorem envTurn_eq (s : State) :
    envTurn s = { s with kbd := s.kbd ++ (s.env.take 1).flatMap batchKeys
                         stopPending := s.stopPending || (s.env.take 1).any batchStops
                         env := s.env.drop 1 } := by
  rcases envTurn_cases s with ⟨henv, hturn⟩ | ⟨batch, later, henv, hturn⟩
  · rw [hturn]
    cases s
    simp_all
  · rw [hturn, henv]
    simp

theorem envTurn_env (s : State) : (envTurn s).env = s.env.drop 1 := by rw [envTurn_eq]

theorem envTurn_kbd (s : State) : (envTurn s).kbd = s.kbd ++ (s.env.take 1).flatMap batchKeys := by rw [envTurn_eq]

theorem envTurn_stopPending (s : State) :
    (envTurn s).stopPending = (s.stopPending || (s.env.take 1).any batchStops) := by rw [envTurn_eq]

/-! ### What one operation can leave -/

/-- The state an operation can leave, after the environment's turn before it; the flag says whether the behaviour goes
on after it. Every branch of `runBehaviour` is one of these (`runBehaviour_performs`). -/
inductive OpEffect (c : Config) : Bool → Op → State → State → Prop
  | regGet (i : RegIndex) (s : State) : OpEffect c true (.regGet i) s s
  | regSet (i : RegIndex) (v : Word) (s : State) : OpEffect c true (.regSet i v) s (s.setReg i v)
  | flagGet (f : Flag) (s : State) : OpEffect c true (.flagGet f) s s
  | flagSet (f : Flag) (b : Bool) (s : State) : OpEffect c true (.flagSet f b) s (s.setFlag f b)
  | takeChar (s : State) (rest : List Byte) (h : rest <:+ s.kbd) :
      OpEffect c true (.busRead c.ioAddr) s { s with kbd := rest }
  | loadWord {addr : Word} {s : State} (h : s.mem.valid addr = true) : OpEffect c true (.busRead addr) s s
  | emitChar (v : Word) (s : State) : OpEffect c true (.busWrite c.ioAddr v) s (charOut (v.extractLsb' 0 8) s)
  | storeWord {addr : Word} {s : State} (v : Word) (h : s.mem.valid addr = true) :
      OpEffect c true (.busWrite addr v) s { s with mem := s.mem.writeWord addr.toNat v }
  | readFault {addr : Word} {s : State} (hio : addr ≠ c.ioAddr) (h : s.mem.valid addr = false) :
      OpEffect c false (.busRead addr) s (raiseAddressFault s)
  | writeFault {addr : Word} {s : State} (v : Word) (hio : addr ≠ c.ioAddr) (h : s.mem.valid addr = false) :
      OpEffect c false (.busWrite addr v) s (raiseAddressFault s)
  | readWaits {s : State} (answers : List Answer) (h : c.kbdStrategy = .blocking) :
      OpEffect c false (.busRead c.ioAddr) s { s with wait := some (.behaviour answers) }
  | haltRequest (s : State) : OpEffect c false .haltRequest s (haltWith none s)

section
variable {c : Config} {s t : State} {op : Op} {goesOn : Bool}

theorem OpEffect.of_memRead {addr v : Word} (h : memRead c addr s = .completed v t) :
    OpEffect c true (.busRead addr) s t := by
  rcases memRead_completed h with ⟨hio, b, hk, -⟩ | ⟨-, hvalid, -, rfl⟩
  · obtain rfl := (isIoAddr_iff c addr).1 hio
    rcases kbdRead_cases hk with ⟨hkbd, ht⟩ | ⟨-, -, -, rfl⟩
    · rw [ht]
      exact .takeChar s _ ⟨[b], hkbd.symm⟩
    · exact .takeChar t t.kbd (List.suffix_refl _)
  · exact .loadWord hvalid

theorem OpEffect.of_memWrite {addr v : Word} {u : Unit} (h : memWrite c addr v s = .completed u t) :
    OpEffect c true (.busWrite addr v) s t := by
  rcases memWrite_completed h with ⟨hio, rfl⟩ | ⟨-, hvalid, rfl⟩
  · obtain rfl := (isIoAddr_iff c addr).1 hio
    exact .emitChar v s
  · exact .storeWord v hvalid

theorem OpEffect.of_memRead_faulted {addr : Word} (h : memRead c addr s = .faulted t) :
    OpEffect c false (.busRead addr) s t := by
  obtain ⟨hio, hinvalid, rfl⟩ := memRead_faulted h
  exact .readFault (ne_ioAddr_of_isIoAddr_false hio) hinvalid

theorem OpEffect.of_memWrite_faulted {addr v : Word} (h : memWrite c addr v s = .faulted t) :
    OpEffect c false (.busWrite addr v) s t := by
  obtain ⟨hio, hinvalid, rfl⟩ := memWrite_faulted h
  exact .writeFault v (ne_ioAddr_of_isIoAddr_false hio) hinvalid

theorem OpEffect.of_memRead_waits {addr : Word} (h : memRead c addr s = .waits) (answers : List Answer) :
    OpEffect c false (.busRead addr) s { s with wait := some (.behaviour answers) } := by
  obtain ⟨hio, -, hblocking⟩ := memRead_waits h
  obtain rfl := (isIoAddr_iff c addr).1 hio
  exact .readWaits answers hblocking

/-! ### What one operation leaves unchanged -/

theorem OpEffect.cur (h : OpEffect c goesOn op s t) : t.cur = s.cur := by cases h <;> simp [raiseAddressFault]

theorem OpEffect.trace (h : OpEffect c goesOn op s t) : t.trace = s.trace := by cases h <;> simp [raiseAddressFault]

theorem OpEffect.env (h : OpEffect c goesOn op s t) : t.env = s.env := by cases h <;> simp [raiseAddressFault]

theorem OpEffect.stopPending (h : OpEffect c goesOn op s t) : t.stopPending = s.stopPending := by
  cases h <;> simp [raiseAddressFault]

theorem OpEffect.size (h : OpEffect c goesOn op s t) : t.mem.size = s.mem.size := by
  cases h <;> simp [raiseAddressFault]

theorem OpEffect.wait (hc : c.kbdStrategy = .buffered) (h : OpEffect c goesOn op s t) : t.wait = s.wait := by
  cases h with
  | readWaits answers hblocking => rw [hc] at hblocking; cases hblocking
  | _ => simp [raiseAddressFault]

theorem OpEffect.reg {i : RegIndex} (hop : ∀ v, op ≠ .regSet i v) (h : OpEffect c goesOn op s t) :
    t.reg i = s.reg i := by
  cases h with
  | regSet j v => exact State.reg_setReg_of_ne v fun hij => hop v (by rw [hij])
  | _ => rfl

theorem OpEffect.flag {f : Flag} (hop : ∀ b, op ≠ .flagSet f b) (h : OpEffect c goesOn op s t) :
    t.flags.get f = s.flags.get f := by
  cases h with
  | flagSet g b => exact (Flags.get_set s.flags g f b).trans (if_neg fun hfg => hop b (by rw [hfg]))
  | regSet i v => rw [State.setReg_flags]
  | _ => rfl

theorem OpEffect.kbd (hop : op ≠ .busRead c.ioAddr) (h : OpEffect c goesOn op s t) : t.kbd = s.kbd := by
  cases h with
  | takeChar => exact absurd rfl hop
  | regSet i v => exact State.setReg_kbd s i v
  | _ => rfl

theorem OpEffect.out (h : OpEffect c goesOn op s t) : t.out = s.out ++ op.emits c := by
  cases h with
  | emitChar v => simp [Op.emits, isIoAddr_ioAddr]
  | storeWord v hvalid => simp [Op.emits, valid_imp_not_isIoAddr hvalid]
  | writeFault v hio => simp [Op.emits, isIoAddr_of_ne hio, raiseAddressFault]
  | _ => simp [Op.emits, raiseAddressFault]

/-- An operation that lets its behaviour go on does not halt and reports nothing. -/
theorem OpEffect.running (h : OpEffect c true op s t) : t.halted = s.halted ∧ t.diag = s.diag := by
  cases h <;> simp

/-- An operation that ends its behaviour waits, or halts on request, or halts with the one diagnostic it can report. -/
theorem OpEffect.ending (h : OpEffect c false op s t) :
    (t.halted = s.halted ∧ t.diag = s.diag) ∨ (t.halted = true ∧ t.diag = s.diag) ∨
    (t.halted = true ∧ t.diag = s.diag ++ [.addressFault]) := by
  cases h with
  | readFault => exact .inr (.inr ⟨rfl, rfl⟩)
  | writeFault => exact .inr (.inr ⟨rfl, rfl⟩)
  | readWaits => exact .inl ⟨rfl, rfl⟩
  | haltRequest => exact .inr (.inl ⟨rfl, by simp⟩)

/-- An operation that marks the cycle held is a waiting read, which does not halt. -/
theorem OpEffect.wait_or_halted (h : OpEffect c goesOn op s t) :
    t.wait = s.wait ∨ t.halted = s.halted := by
  cases h with
  | readFault => exact .inl rfl
  | writeFault => exact .inl rfl
  | haltRequest => exact .inl rfl
  | _ => exact .inr (by simp)

theorem OpEffect.wait_of_goesOn (h : OpEffect c true op s t) :
    t.wait = s.wait := by
  cases h <;> simp

/-- Memory stays well formed, and a byte the operation does not store to keeps its value. Whether it stores to a byte
depends on the size of memory alone (`m`), which no operation changes. -/
theorem OpEffect.mem {m : Memory} (hsize : s.mem.size = m.size) (hwf : s.mem.wf = true)
    (h : OpEffect c goesOn op s t) :
    t.mem.wf = true ∧ ∀ x, op.storesTo c m x = false → t.mem.byte x = s.mem.byte x := by
  cases h with
  | @storeWord addr s v hvalid =>
    have hvalid' : m.valid addr = true := by rwa [Memory.valid, ← hsize]
    obtain ⟨-, -, hinside⟩ := (Memory.valid_iff _ _).1 hvalid
    refine ⟨Memory.wf_writeWord hwf hinside v, fun x hx => ?_⟩
    have houtside : ¬(addr.toNat ≤ x ∧ x < addr.toNat + 4) := by
      simpa [Op.storesTo, valid_imp_not_isIoAddr hvalid', hvalid'] using hx
    exact Memory.byte_writeWord_outside hwf hinside v (by omega)
  | regSet i v => rw [State.setReg_mem]; exact ⟨hwf, fun _ _ => rfl⟩
  | _ => exact ⟨hwf, fun _ _ => rfl⟩

end

/-! ### A run as a chain of operations -/

/-- From `s` the operations `ops` are performed one after the other, the environment having its turn before each, and
leave `t`; only the last may be one after which the behaviour does not go on. -/
inductive Performs (c : Config) : State → List Op → State → Prop
  | done (s : State) : Performs c s [] s
  | next {op : Op} {ops : List Op} {s t u : State} (h : OpEffect c true op (envTurn s) t) (rest : Performs c t ops u) :
      Performs c s (op :: ops) u
  | last {op : Op} {s t : State} (h : OpEffect c false op (envTurn s) t) : Performs c s [op] t

/-- A behaviour's run is the chain of the operations it performs. -/
theorem runBehaviour_performs (c : Config) (b : Behaviour) (answers : List Answer) (s : State) :
    Performs c s (performedOps c b s) (runBehaviour c b answers s) := by
  induction b generalizing answers s with
  | done => exact .done s
  | regGet i k ih => exact .next (.regGet i _) (ih _ _ _)
  | regSet i v k ih => exact .next (.regSet i v _) (ih _ _)
  | flagGet f k ih => exact .next (.flagGet f _) (ih _ _ _)
  | flagSet f b k ih => exact .next (.flagSet f b _) (ih _ _)
  | busRead addr k ih =>
    simp only [runBehaviour, performedOps]
    cases h : memRead c addr (envTurn s) with
    | completed v t => exact .next (.of_memRead h) (ih _ _ _)
    | faulted t => exact .last (.of_memRead_faulted h)
    | waits => exact .last (.of_memRead_waits h answers)
  | busWrite addr v k ih =>
    simp only [runBehaviour, performedOps]
    cases h : memWrite c addr v (envTurn s) with
    | completed u t => exact .next (.of_memWrite h) (ih _ _)
    | faulted t => exact .last (.of_memWrite_faulted h)
    | waits => exact absurd h (memWrite_ne_waits c addr v _)
  | haltRequest => exact .last (.haltRequest _)

section
variable {c : Config} {s t : State} {ops : List Op}

/-- What the environment's turn keeps, and every operation of a kind keeps, a chain of operations of that kind keeps. -/
theorem Performs.keeps {α : Type} {view : State → α} {Q : Op → Prop} (hturn : ∀ s, view (envTurn s) = view s)
    (hop : ∀ {goesOn op s t}, Q op → OpEffect c goesOn op s t → view t = view s) (h : Performs c s ops t)
    (hops : ∀ op ∈ ops, Q op) : view t = view s := by
  induction h with
  | done s => rfl
  | next h _ ih =>
    rw [List.forall_mem_cons] at hops
    rw [ih hops.2, hop hops.1 h, hturn]
  | last h => rw [hop (hops _ List.mem_cons_self) h, hturn]

theorem Performs.cur (h : Performs c s ops t) : t.cur = s.cur :=
  h.keeps (Q := fun _ => True) (view := State.cur) envTurn_cur (fun _ => OpEffect.cur) fun _ _ => trivial

theorem Performs.trace (h : Performs c s ops t) : t.trace = s.trace :=
  h.keeps (Q := fun _ => True) (view := State.trace) envTurn_trace (fun _ => OpEffect.trace) fun _ _ => trivial

theorem Performs.size (h : Performs c s ops t) : t.mem.size = s.mem.size :=
  h.keeps (Q := fun _ => True) (view := fun s => s.mem.size) (fun s => by rw [envTurn_mem]) (fun _ => OpEffect.size)
    fun _ _ => trivial

theorem Performs.wait (hc : c.kbdStrategy = .buffered) (h : Performs c s ops t) : t.wait = s.wait :=
  h.keeps (Q := fun _ => True) (view := State.wait) envTurn_wait (fun _ => OpEffect.wait hc) fun _ _ => trivial

theorem Performs.reg {i : RegIndex} (h : Performs c s ops t) (hops : ∀ v, Op.regSet i v ∉ ops) :
    t.reg i = s.reg i :=
  h.keeps (Q := fun op => ∀ v, op ≠ .regSet i v) (view := fun s => s.reg i) (fun s => reg_envTurn s i) OpEffect.reg
    fun _ hmem v heq => hops v (heq ▸ hmem)

theorem Performs.flag {f : Flag} (h : Performs c s ops t) (hops : ∀ b, Op.flagSet f b ∉ ops) :
    t.flags.get f = s.flags.get f :=
  h.keeps (Q := fun op => ∀ b, op ≠ .flagSet f b) (view := fun s => s.flags.get f) (fun s => by rw [envTurn_flags])
    OpEffect.flag fun _ hmem v heq => hops v (heq ▸ hmem)

theorem Performs.out (h : Performs c s ops t) : t.out = s.out ++ ops.flatMap (Op.emits c) := by
  induction h with
  | done s => simp
  | next h _ ih => rw [ih, h.out, envTurn_out, List.flatMap_cons, List.append_assoc]
  | last h => rw [h.out, envTurn_out, List.flatMap_singleton]

/-- A run halts with one AddressFault reported, or reports nothing; and it never leaves Halted. -/
theorem Performs.diag (h : Performs c s ops t) :
    (s.halted = true → t.halted = true) ∧
    (t.diag = s.diag ∨ (t.halted = true ∧ t.diag = s.diag ++ [.addressFault])) := by
  induction h with
  | done s => exact ⟨id, .inl rfl⟩
  | next h _ ih =>
    obtain ⟨hhalted, hdiag⟩ := h.running
    rwa [hhalted, hdiag, envTurn_halted, envTurn_diag] at ih
  | @last op s t h =>
    rw [← envTurn_halted s, ← envTurn_diag s]
    rcases h.ending with ⟨hhalted, hdiag⟩ | ⟨hhalted, hdiag⟩ | hfault
    · exact ⟨fun hs => hhalted.trans hs, .inl hdiag⟩
    · exact ⟨fun _ => hhalted, .inl hdiag⟩
    · exact ⟨fun _ => hfault.1, .inr hfault⟩

/-- A behaviour that becomes held has not halted. -/
theorem Performs.wait_or_halted (h : Performs c s ops t) :
    t.wait = s.wait ∨ t.halted = s.halted := by
  induction h with
  | done s => exact .inl rfl
  | next h _ ih => rwa [h.wait_of_goesOn, h.running.1, envTurn_wait, envTurn_halted] at ih
  | @last op s t h => rw [← envTurn_wait s, ← envTurn_halted s]; exact h.wait_or_halted

/-- The memory frame of a chain, with the size of memory as the operations' addresses are tested against it. -/
theorem Performs.mem {m : Memory} (h : Performs c s ops t) (hsize : s.mem.size = m.size) (hwf : s.mem.wf = true) :
    t.mem.wf = true ∧ ∀ x, (∀ op ∈ ops, op.storesTo c m x = false) → t.mem.byte x = s.mem.byte x := by
  induction h with
  | done s => exact ⟨hwf, fun _ _ => rfl⟩
  | @next op ops s t u h _ ih =>
    rw [← envTurn_mem] at hsize hwf
    obtain ⟨hwf', hbyte⟩ := h.mem hsize hwf
    obtain ⟨hwf'', hrest⟩ := ih (h.size.trans hsize) hwf'
    refine ⟨hwf'', fun x hx => ?_⟩
    rw [List.forall_mem_cons] at hx
    rw [hrest x hx.2, hbyte x hx.1, envTurn_mem]
  | @last op s t h =>
    rw [← envTurn_mem] at hsize hwf
    obtain ⟨hwf', hbyte⟩ := h.mem hsize hwf
    refine ⟨hwf', fun x hx => ?_⟩
    rw [hbyte x (hx _ List.mem_cons_self), envTurn_mem]

/-- `n` batches of the schedule have happened from `s` to `t`: the schedule is shorter by them, and a request in them
is latched; when `read` does not hold (nothing took a character) the queue has grown by their keys. -/
def EnvActed (n : Nat) (read : Prop) (s t : State) : Prop :=
  t.env = s.env.drop n ∧ t.stopPending = (s.stopPending || (s.env.take n).any batchStops) ∧
  (¬read → t.kbd = s.kbd ++ (s.env.take n).flatMap batchKeys)

/-- The environment's turn and an operation, which does nothing to the schedule. -/
theorem EnvActed.of_opEffect {op : Op} {goesOn : Bool} (h : OpEffect c goesOn op (envTurn s) t) :
    EnvActed 1 (op = .busRead c.ioAddr) s t :=
  ⟨h.env.trans (envTurn_env s), h.stopPending.trans (envTurn_stopPending s),
    fun hop => (h.kbd hop).trans (envTurn_kbd s)⟩

theorem EnvActed.trans {n m : Nat} {p q : Prop} {u : State} (h : EnvActed n p s t) (h' : EnvActed m q t u) :
    EnvActed (n + m) (p ∨ q) s u := by
  obtain ⟨henv, hstop, hkbd⟩ := h
  obtain ⟨henv', hstop', hkbd'⟩ := h'
  refine ⟨?_, ?_, fun hpq => ?_⟩
  · rw [henv', henv, List.drop_drop]
  · rw [hstop', hstop, henv, List.take_add, List.any_append, Bool.or_assoc]
  · rw [not_or] at hpq
    rw [hkbd' hpq.2, hkbd hpq.1, henv, List.take_add, List.flatMap_append, List.append_assoc]

theorem Performs.envActed (h : Performs c s ops t) : ∃ n, EnvActed n (Op.busRead c.ioAddr ∈ ops) s t := by
  induction h with
  | done s => exact ⟨0, by simp [EnvActed]⟩
  | next h _ ih =>
    obtain ⟨n, hrest⟩ := ih
    refine ⟨1 + n, ?_⟩
    simpa only [List.mem_cons, eq_comm] using (EnvActed.of_opEffect h).trans hrest
  | last h => exact ⟨1, by simpa only [List.mem_singleton, eq_comm] using EnvActed.of_opEffect h⟩

end

/-! ### The statements -/

/-- Settles O44: each clause is a frame of the chain of operations. -/
theorem behaviourStaysInsideItsInterface : Obligations.BehaviourStaysInsideItsInterface := by
  intro c b answers s t
  have h : Performs c s _ t := runBehaviour_performs c b answers s
  obtain ⟨hhalted, hdiag⟩ := h.diag
  obtain ⟨n, henv, hstop, -⟩ := h.envActed
  exact ⟨h.cur, h.trace, h.size, hhalted, ⟨_, h.out⟩, hdiag, n, henv, hstop⟩

/-- Settles O45, likewise. -/
theorem behaviourFrame : Obligations.BehaviourFrame := by
  intro c b answers s t ops
  have h : Performs c s ops t := runBehaviour_performs c b answers s
  obtain ⟨n, henv, -, hkbd⟩ := h.envActed
  exact ⟨fun i => h.reg, fun f => h.flag, fun hwf => (h.mem rfl hwf).2, h.out, fun hread => ⟨n, henv, hkbd hread⟩⟩

end Sys2Proof.Machine
end

section
/-! PROOFS. The instructions and the engine cycle: the frame of every instruction (40_engine_cycle.md section 2), and
what a pass of the engine keeps and reports (10_state.md section 9, 60_exceptions.md section 5). -/

namespace Sys2Proof.Machine

/-! ### The instructions by their class (30_encoding.md R101) -/

/-- A condition row is the row its code selects. -/
theorem instr_cases (i : Instr) : (∃ low, i = .guard low) ∨ (∃ w, i = .ext w) ∨ ∃ code, i = decodeCond code := by
  cases i with
  | guard low => exact .inl ⟨low, rfl⟩
  | ext w => exact .inr (.inl ⟨w, rfl⟩)
  | cond0 => exact .inr (.inr ⟨0b0000#4, rfl⟩)
  | cond1 => exact .inr (.inr ⟨0b0001#4, rfl⟩)
  | cond2 => exact .inr (.inr ⟨0b0010#4, rfl⟩)
  | cond3 => exact .inr (.inr ⟨0b0011#4, rfl⟩)
  | cond4 => exact .inr (.inr ⟨0b0100#4, rfl⟩)
  | cond5 => exact .inr (.inr ⟨0b0101#4, rfl⟩)
  | cond6 => exact .inr (.inr ⟨0b0110#4, rfl⟩)
  | cond7 => exact .inr (.inr ⟨0b0111#4, rfl⟩)
  | cond8 => exact .inr (.inr ⟨0b1000#4, rfl⟩)
  | cond9 => exact .inr (.inr ⟨0b1001#4, rfl⟩)
  | cond10 => exact .inr (.inr ⟨0b1010#4, rfl⟩)
  | cond11 => exact .inr (.inr ⟨0b1011#4, rfl⟩)
  | cond12 => exact .inr (.inr ⟨0b1100#4, rfl⟩)
  | cond13 => exact .inr (.inr ⟨0b1101#4, rfl⟩)
  | cond14 => exact .inr (.inr ⟨0b1110#4, rfl⟩)
  | cond15 => exact .inr (.inr ⟨0b1111#4, rfl⟩)

/-- A property of condition codes holds of all when it holds of the sixteen written out. -/
theorem condCode_forall {P : CondCode → Prop} (h : ∀ n : Fin 16, P (BitVec.ofFin n)) (code : CondCode) : P code :=
  h code.toFin

theorem instrOps_decodeCond (code : CondCode) (s : State) : instrOps (decodeCond code) s = rowOps code s := by
  revert code
  refine condCode_forall fun n => ?_
  fin_cases n <;> rfl

theorem decodeCond_ne_ext (code : CondCode) (w : Word) : decodeCond code ≠ .ext w := by
  revert code
  refine condCode_forall fun n => ?_
  fin_cases n <;> exact nofun

/-! ### The frame of a condition row and of an EXT word (40_engine_cycle.md R115, R116) -/

theorem traceText_eq_with_trace (c : Config) (text : String) (s : State) :
    traceText c text s = { s with trace := (traceText c text s).trace } := by
  unfold traceText
  split <;> rfl

theorem executeCurrent_of_some {c : Config} {s : State} {w : Word} (h : s.cur = some w) :
    executeCurrent c s = executeWord c w s := by
  rw [executeCurrent, h]

theorem executeCurrent_of_none {c : Config} {s : State} (h : s.cur = none) : executeCurrent c s = s := by
  rw [executeCurrent, h]

/-! The test and execute steps and the operations they perform, by whether the condition passes and what `cur` holds. -/

theorem testAndExecute_of_pass {c : Config} {code : CondCode} {s : State} (h : condPass code s.flags = true) :
    testAndExecute c code s = executeCurrent c s := if_pos h

theorem testAndExecute_of_fail {c : Config} {code : CondCode} {s : State} (h : condPass code s.flags = false) :
    testAndExecute c code s = s := by
  rw [testAndExecute, h, if_neg Bool.false_ne_true]

theorem rowOps_of_fail {code : CondCode} {s : State} (h : condPass code s.flags = false) : rowOps code s = [] := by
  rw [rowOps, h, if_neg Bool.false_ne_true]

theorem rowOps_of_some {code : CondCode} {s : State} {w : Word} (h : condPass code s.flags = true)
    (hcur : s.cur = some w) :
    rowOps code s = performedOps params (params.decode w).exec (traceText params (params.decode w).text s) := by
  rw [rowOps, if_pos h, hcur]

theorem rowOps_of_none {code : CondCode} {s : State} (hcur : s.cur = none) : rowOps code s = [] := by
  cases h : condPass code s.flags with
  | true => rw [rowOps, if_pos h, hcur]
  | false => exact rowOps_of_fail h

/-- The test and execute steps perform the row's operations, once the trace text is emitted. -/
theorem testAndExecute_performs (code : CondCode) (s : State) :
    ∃ emitted, Performs params { s with trace := emitted } (rowOps code s) (testAndExecute params code s) := by
  cases hpass : condPass code s.flags with
  | false =>
    rw [rowOps_of_fail hpass, testAndExecute_of_fail hpass]
    exact ⟨s.trace, .done s⟩
  | true =>
    rw [testAndExecute_of_pass hpass]
    cases hcur : s.cur with
    | none =>
      rw [rowOps_of_none hcur, executeCurrent_of_none hcur, ← hcur]
      exact ⟨s.trace, .done s⟩
    | some w =>
      rw [rowOps_of_some hpass hcur, executeCurrent_of_some hcur, ← hcur]
      refine ⟨(traceText params (params.decode w).text s).trace, ?_⟩
      rw [← traceText_eq_with_trace]
      exact runBehaviour_performs _ _ _ _

/-- What `ops` leave unchanged from `s` to `t`: the clauses the frames of all classes of instruction share. -/
structure OpsFrame (s : State) (ops : List Op) (t : State) : Prop where
  reg : ∀ r, (∀ v, Op.regSet r v ∉ ops) → t.reg r = s.reg r
  flag : ∀ f, (∀ v, Op.flagSet f v ∉ ops) → t.flags.get f = s.flags.get f
  byte : s.mem.wf = true → ∀ x, (∀ op ∈ ops, op.storesTo params s.mem x = false) → t.mem.byte x = s.mem.byte x
  out : t.out = s.out ++ ops.flatMap (Op.emits params)
  size : t.mem.size = s.mem.size
  wait : t.wait = s.wait
  halted : s.halted = true → t.halted = true
  cur : t.cur = s.cur
  kbd : Op.busRead params.ioAddr ∉ ops →
    ∃ n, t.env = s.env.drop n ∧ t.kbd = s.kbd ++ (s.env.take n).flatMap batchKeys
  idle : ops = [] → t.mem = s.mem ∧ t.kbd = s.kbd ∧ t.env = s.env ∧ t.stopPending = s.stopPending ∧
    t.halted = s.halted ∧ t.diag = s.diag

theorem Performs.eq_of_nil {c : Config} {s t : State} (h : Performs c s [] t) : t = s := by
  cases h; rfl

/-- The trace is in no clause of the frame, so the trace text emitted first does not disturb it. -/
theorem testAndExecute_frame (code : CondCode) (s : State) :
    OpsFrame s (rowOps code s) (testAndExecute params code s) := by
  obtain ⟨emitted, h⟩ := testAndExecute_performs code s
  exact
    { reg := fun r => h.reg
      flag := fun f => h.flag
      byte := fun hwf => (h.mem rfl hwf).2
      out := h.out
      size := h.size
      wait := (h.wait params_kbdStrategy :)
      halted := h.diag.1
      cur := h.cur
      kbd := fun hread => by
        obtain ⟨n, henv, -, hkbd⟩ := h.envActed
        exact ⟨n, henv, hkbd hread⟩
      idle := fun hnil => by
        rw [hnil] at h
        rw [h.eq_of_nil]
        exact ⟨rfl, rfl, rfl, rfl, rfl, rfl⟩ }

/-! ### The cycle of an EXT word (R120) -/

theorem cycleWord_of_ext {c : Config} {w : Word} {s : State} (hw : 16 ≤ w.toNat) :
    cycleWord c w s = testAndExecute c (c.decode w).cond (setCurrent w (advance s)) :=
  if_neg (Nat.not_lt.2 hw)

theorem cycleWord_of_condPass {c : Config} {w : Word} {s : State} (hw : 16 ≤ w.toNat)
    (hpass : condPass (c.decode w).cond s.flags = true) :
    cycleWord c w s = executeWord c w (setCurrent w (advance s)) := by
  rw [cycleWord_of_ext hw]
  exact if_pos hpass

theorem cycleWord_of_guard {c : Config} {w : Word} {s : State} (hw : w.toNat < 16) :
    cycleWord c w s = haltWith (some .reservedLowValueGuard) s := if_pos hw

/-- For any decoder, the advance stands when the behaviour, if it runs, does not write register 15. -/
theorem cycleWord_pc {c : Config} {w : Word} {s : State} (hw : 16 ≤ w.toNat)
    (hops : condPass (c.decode w).cond s.flags = true → ∀ v, Op.regSet 15#4 v ∉
      performedOps c (c.decode w).exec (traceText c (c.decode w).text (setCurrent w (advance s)))) :
    (cycleWord c w s).pc = s.pc + 4#32 := by
  cases hpass : condPass (c.decode w).cond s.flags with
  | true =>
    rw [cycleWord_of_condPass hw hpass]
    have hkept := (runBehaviour_performs c _ [] _).reg (hops hpass)
    rw [reg_traceText, reg_setCurrent] at hkept
    exact hkept.trans (advance_pc s)
  | false => rw [cycleWord_of_condPass_false hw hpass, pc_setCurrent, advance_pc]

/-- Settles O46: a GUARD word's frame is the halting event's; that of a condition row and of an EXT word is the frame of
the operations performed, for the EXT word after the advance and the decode. -/
theorem instructionFrame : Obligations.InstructionFrame := by
  refine ⟨fun i s t hexec => ?_, fun c w s hw => cycleWord_pc hw⟩
  rcases instr_cases i with ⟨low, rfl⟩ | ⟨w, rfl⟩ | ⟨code, rfl⟩
  · cases hexec
    exact ⟨fun _ _ _ => rfl, fun _ _ => rfl, fun _ _ _ => rfl, (List.append_nil _).symm, rfl, rfl, fun _ => rfl,
      fun _ => ⟨rfl, fun _ => rfl⟩, nofun, fun _ => ⟨0, rfl, (List.append_nil _).symm⟩,
      fun _ => ⟨rfl, rfl, rfl, rfl, fun hguard => absurd rfl (hguard low)⟩⟩
  · cases hexec
    have h := testAndExecute_frame (params.decode w).cond (setCurrent w (advance s))
    refine ⟨fun r hr hops => (h.reg r hops).trans (reg_advance_of_ne s hr), h.flag, h.byte, h.out, h.size, h.wait,
      h.halted, fun hw => absurd rfl (hw w), ?_, h.kbd, fun hnil => ?_⟩
    · rintro _ ⟨⟩
      exact ⟨h.cur, fun hops => (h.reg _ hops).trans (advance_pc s)⟩
    · obtain ⟨hmem, hkbd, henv, hstop, hrest⟩ := h.idle hnil
      exact ⟨hmem, hkbd, henv, hstop, fun _ => hrest⟩
  · rw [exec_decodeCond] at hexec
    cases hexec
    rw [instrOps_decodeCond]
    have h := testAndExecute_frame code s
    refine ⟨fun r _ => h.reg r, h.flag, h.byte, h.out, h.size, h.wait, h.halted, fun _ => ⟨h.cur, h.reg _⟩,
      fun w hw => absurd hw (decodeCond_ne_ext code w), h.kbd, fun hnil => ?_⟩
    obtain ⟨hmem, hkbd, henv, hstop, hrest⟩ := h.idle hnil
    exact ⟨hmem, hkbd, henv, hstop, fun _ => hrest⟩

/-! ### A pass of the engine, by where it ends (R110) -/

/-- All that happens to a halted machine is the environment's turn (60_exceptions.md R221). -/
theorem boundary_of_halted {c : Config} {s : State} (h : s.halted = true) : boundary c s = .settled (envTurn s) := by
  simp [boundary, h]

theorem engineLoop_of_settled {c : Config} {s t : State} (h : boundary c s = .settled t) : engineLoop c s = t := by
  simp only [engineLoop, h]

theorem engineLoop_of_halted {c : Config} {s : State} (h : s.halted = true) : engineLoop c s = envTurn s :=
  engineLoop_of_settled (boundary_of_halted h)

/-- What a pass does once its boundary has it fetch: it gets a word, whose cycle runs, or it faults, or it waits. -/
theorem engineLoop_of_fetch {c : Config} {s u : State} (hfetch : boundary c s = fetch c u) :
    (∃ w t, memRead c u.pc u = .completed w t ∧ engineLoop c s = cycleWord c w t) ∨
    engineLoop c s = raiseAddressFault u ∨
    (c.kbdStrategy = .blocking ∧ engineLoop c s = { u with wait := some .fetch }) := by
  rcases fetch_cases c u with ⟨w, t, hread, h⟩ | ⟨-, h⟩ | ⟨hwaits, h⟩
  · exact .inl ⟨w, t, hread, by simp only [engineLoop, hfetch, h]⟩
  · exact .inr (.inl (engineLoop_of_settled (hfetch.trans h)))
  · exact .inr (.inr ⟨(memRead_waits hwaits).2.2, engineLoop_of_settled (hfetch.trans h)⟩)

theorem envTurn_with_wait_none {s : State} (h : s.wait = none) : { envTurn s with wait := none } = envTurn s := by
  rw [← h, ← envTurn_wait s]

/-- What a pass with the buffered keyboard can do, said once. A fetch is the same whether the pass stood at a boundary
or was held there, since then the held mark is cleared. -/
theorem engineLoop_cases {c : Config} (hc : c.kbdStrategy = .buffered) (s : State) :
    (s.halted = true ∧ engineLoop c s = envTurn s) ∨
    (s.halted = false ∧ ∃ answers, s.wait = some (.behaviour answers) ∧
      engineLoop c s = resumeBehaviour c answers { envTurn s with wait := none }) ∨
    (s.halted = false ∧ engineLoop c s = haltWith (some .externalInterrupt) (envTurn s)) ∨
    (s.halted = false ∧ engineLoop c s = raiseAddressFault { envTurn s with wait := none }) ∨
    (s.halted = false ∧ ∃ w t, memRead c s.pc { envTurn s with wait := none } = .completed w t ∧
      engineLoop c s = cycleWord c w t) := by
  have hfetching : s.halted = false → boundary c s = fetch c { envTurn s with wait := none } →
      (s.halted = false ∧ engineLoop c s = raiseAddressFault { envTurn s with wait := none }) ∨
      (s.halted = false ∧ ∃ w t, memRead c s.pc { envTurn s with wait := none } = .completed w t ∧
        engineLoop c s = cycleWord c w t) := by
    intro hh hfetch
    rw [← pc_envTurn s]
    rcases engineLoop_of_fetch hfetch with h | h | ⟨hblocking, -⟩
    · exact .inr ⟨hh, h⟩
    · exact .inl ⟨hh, h⟩
    · rw [hc] at hblocking; cases hblocking
  rcases boundary_cases c s with ⟨hh, h⟩ | ⟨hh, answers, hw, h⟩ | ⟨hh, -, h⟩ | ⟨hh, -, -, h⟩ | ⟨hh, hw, -, h⟩
  · exact .inl ⟨hh, engineLoop_of_settled h⟩
  · exact .inr (.inl ⟨hh, answers, hw, engineLoop_of_settled h⟩)
  · exact .inr (.inr (.inr (hfetching hh h)))
  · exact .inr (.inr (.inl ⟨hh, engineLoop_of_settled h⟩))
  · rw [← envTurn_with_wait_none hw] at h
    exact .inr (.inr (.inr (hfetching hh h)))

/-! ### What a pass keeps (10_state.md section 9) -/

/-- The clauses of the invariant that hold at every point of a pass, not only at its end. -/
structure State.Sound (s : State) : Prop where
  zeroSlot : s.regs[0] = 0#32
  memWf : s.mem.wf = true
  curExt : ∀ w, s.cur = some w → 16 ≤ w.toNat
  noWait : s.wait = none

/-- The four clauses read these four fields only. -/
theorem State.Sound.congr {s t : State} (h : s.Sound) (hregs : t.regs = s.regs) (hmem : t.mem = s.mem)
    (hcur : t.cur = s.cur) (hwait : t.wait = s.wait) : t.Sound := by
  obtain ⟨hzero, hwf, hext, hnone⟩ := h
  exact ⟨by rwa [hregs], by rwa [hmem], by rwa [hcur], by rwa [hwait]⟩

theorem State.setReg_zeroSlot (s : State) (i : RegIndex) (v : Word) : (s.setReg i v).regs[0] = s.regs[0] := by
  unfold State.setReg
  split
  · rfl
  · have hi : i.toNat ≠ 0 := fun h => ‹¬i = 0#4› (BitVec.eq_of_toNat_eq h)
    exact Vector.getElem_set_ne i.isLt (Nat.zero_lt_succ 15) hi

theorem State.Sound.setReg {s : State} (h : s.Sound) (i : RegIndex) (v : Word) : (s.setReg i v).Sound := by
  obtain ⟨hzero, hwf, hext, hnone⟩ := h
  exact ⟨by rwa [State.setReg_zeroSlot], by rwa [State.setReg_mem], by rwa [State.setReg_cur],
    by rwa [State.setReg_wait]⟩

theorem State.Sound.envTurn {s : State} (h : s.Sound) : (envTurn s).Sound :=
  h.congr (envTurn_regs s) (envTurn_mem s) (envTurn_cur s) (envTurn_wait s)

theorem State.Sound.memRead {c : Config} {addr v : Word} {s t : State} (h : s.Sound)
    (hread : memRead c addr s = .completed v t) : t.Sound := by
  rw [memRead_frame hread]
  exact h.congr rfl rfl rfl rfl

theorem State.Sound.memWrite {c : Config} {addr v : Word} {u : Unit} {s t : State} (h : s.Sound)
    (hwrite : memWrite c addr v s = .completed u t) : t.Sound := by
  rcases memWrite_completed hwrite with ⟨-, rfl⟩ | ⟨-, hvalid, rfl⟩
  · exact h.congr rfl rfl rfl rfl
  · exact { h with memWf := Memory.wf_writeWord h.memWf ((Memory.valid_iff _ _).1 hvalid).2.2 v }

theorem runBehaviour_sound {c : Config} (hc : c.kbdStrategy = .buffered) (b : Behaviour) (answers : List Answer)
    {s : State} (h : s.Sound) : (runBehaviour c b answers s).Sound :=
  runBehaviour_keeps (P := State.Sound) (fun _ => .envTurn) (fun _ i v h => h.setReg i v)
    (fun _ _ _ h => h.congr rfl rfl rfl rfl) (fun _ _ _ _ => .memRead) (fun _ _ _ _ _ => .memWrite)
    (fun _ h => h.congr rfl rfl rfl rfl) (fun _ h => h.congr rfl rfl rfl rfl)
    (fun s addr _ _ hwaits => by
      obtain ⟨-, -, hblocking⟩ := memRead_waits hwaits
      rw [hc] at hblocking
      cases hblocking)
    b answers s h

theorem cycleWord_sound {c : Config} (hc : c.kbdStrategy = .buffered) (w : Word) {s : State} (h : s.Sound) :
    (cycleWord c w s).Sound := by
  by_cases hw : w.toNat < 16
  · rw [cycleWord_of_guard hw]
    exact h.congr rfl rfl rfl rfl
  · have hw : 16 ≤ w.toNat := Nat.not_lt.1 hw
    have hdecoded : (setCurrent w (advance s)).Sound :=
      { h.setReg 15#4 (s.pc + 4#32) with curExt := by rintro _ ⟨⟩; exact hw }
    cases hpass : condPass (c.decode w).cond s.flags with
    | false => rwa [cycleWord_of_condPass_false hw hpass]
    | true =>
      rw [cycleWord_of_condPass hw hpass]
      refine runBehaviour_sound hc _ _ (hdecoded.congr ?_ ?_ ?_ ?_) <;> simp

theorem engineLoop_sound {c : Config} (hc : c.kbdStrategy = .buffered) {s : State} (h : s.Sound) :
    (engineLoop c s).Sound := by
  have hturn : State.Sound { envTurn s with wait := none } := { h.envTurn with noWait := rfl }
  rcases engineLoop_cases hc s with ⟨-, heq⟩ | ⟨-, answers, hw, -⟩ | ⟨-, heq⟩ | ⟨-, heq⟩ | ⟨-, w, t, hread, heq⟩
  · rw [heq]; exact h.envTurn
  · rw [h.noWait] at hw; cases hw
  · rw [heq]; exact h.envTurn.congr rfl rfl rfl rfl
  · rw [heq]; exact hturn.congr rfl rfl rfl rfl
  · rw [heq]; exact cycleWord_sound hc w (hturn.memRead hread)

/-! ### What a pass reports (60_exceptions.md sections 1, 5 and 6) -/

/-- From `s` to `t` nothing was reported, or the machine halted with exactly one of the three halting causes. -/
def Reports (s t : State) : Prop :=
  t.diag = s.diag ∨
  (t.halted = true ∧ ∃ cause, (cause = .addressFault ∨ cause = .reservedLowValueGuard ∨ cause = .externalInterrupt) ∧
    t.diag = s.diag ++ [cause])

theorem runBehaviour_reports (c : Config) (b : Behaviour) (answers : List Answer) (s : State) :
    Reports s (runBehaviour c b answers s) :=
  (runBehaviour_performs c b answers s).diag.2.imp_right fun ⟨hhalted, hdiag⟩ => ⟨hhalted, _, .inl rfl, hdiag⟩

/-- Only the diagnostics of the state a pass starts from matter. -/
theorem Reports.of_diag_eq {s s' t : State} (hdiag : s'.diag = s.diag) (h : Reports s' t) : Reports s t := by
  rwa [Reports, hdiag] at h

theorem resumeBehaviour_reports (c : Config) (answers : List Answer) (s : State) :
    Reports s (resumeBehaviour c answers s) := by
  unfold resumeBehaviour
  split
  · exact runBehaviour_reports c _ _ _
  · exact .inl rfl

theorem cycleWord_reports (c : Config) (w : Word) (s : State) : Reports s (cycleWord c w s) := by
  by_cases hw : w.toNat < 16
  · rw [cycleWord_of_guard hw]
    exact .inr ⟨rfl, _, .inr (.inl rfl), rfl⟩
  · have hw : 16 ≤ w.toNat := Nat.not_lt.1 hw
    cases hpass : condPass (c.decode w).cond s.flags with
    | false => rw [cycleWord_of_condPass_false hw hpass]; exact .inl (by simp)
    | true =>
      rw [cycleWord_of_condPass hw hpass]
      exact (runBehaviour_reports c _ _ _).of_diag_eq (by simp)

theorem engineLoop_reports {c : Config} (hc : c.kbdStrategy = .buffered) (s : State) : Reports s (engineLoop c s) := by
  rcases engineLoop_cases hc s with ⟨-, heq⟩ | ⟨-, answers, -, heq⟩ | ⟨-, heq⟩ | ⟨-, heq⟩ | ⟨-, w, t, hread, heq⟩
  · rw [heq]; exact .inl (envTurn_diag s)
  · rw [heq]; exact (resumeBehaviour_reports c answers _).of_diag_eq (envTurn_diag s)
  · rw [heq]; exact .inr ⟨rfl, _, .inr (.inr rfl), by simp⟩
  · rw [heq]; exact .inr ⟨rfl, _, .inl rfl, by simp [raiseAddressFault]⟩
  · rw [heq]
    refine (cycleWord_reports c w t).of_diag_eq ?_
    rw [memRead_frame hread]
    exact envTurn_diag s

theorem step_eq_next_iff {s t : State} : step s = .next t ↔ engineLoop params s = t := by
  rw [step_eq_engineLoop, Host.Outcome.next.injEq]

/-- Settles O29: a step is a pass of the engine with the buffered keyboard. -/
theorem stepReportsAtMostOneHaltingEvent : Obligations.StepReportsAtMostOneHaltingEvent := by
  intro s t _ hstep
  obtain rfl := step_eq_next_iff.1 hstep
  exact engineLoop_reports params_kbdStrategy s

/-- A running machine that has reported no halting event reports at most one in a pass, and none if it goes on. -/
theorem Reports.haltEvents {s t : State} (h : Reports s t) (hclean : s.haltEvents = []) :
    t.haltEvents.length ≤ 1 ∧ (t.halted = false → t.haltEvents = []) := by
  rcases h with hdiag | ⟨hhalted, cause, -, hdiag⟩
  · rw [State.haltEvents, hdiag, ← State.haltEvents, hclean]
    exact ⟨Nat.zero_le 1, fun _ => rfl⟩
  · rw [State.haltEvents, hdiag, List.filter_append, ← State.haltEvents, hclean, List.nil_append, hhalted]
    exact ⟨List.length_filter_le _ [cause], nofun⟩

/-- Settles O48: four clauses hold at every point of a pass, and the two on halting events follow from what a pass
reports. -/
theorem stepKeepsTheInvariant : Obligations.StepKeepsTheInvariant := by
  intro s t hinv hstep
  obtain rfl := step_eq_next_iff.1 hstep
  obtain ⟨hzero, hwf, hext, hnone⟩ := engineLoop_sound params_kbdStrategy
    (⟨hinv.zeroSlot, hinv.memWf, hinv.curExt, hinv.noWait⟩ : s.Sound)
  have hevents : (engineLoop params s).haltEvents.length ≤ 1 ∧
      ((engineLoop params s).halted = false → (engineLoop params s).haltEvents = []) := by
    cases hh : s.halted with
    | false => exact (engineLoop_reports params_kbdStrategy s).haltEvents (hinv.runningClean hh)
    | true =>
      rw [engineLoop_of_halted hh, State.haltEvents, envTurn_diag, envTurn_halted, hh]
      exact ⟨hinv.oneHalt, nofun⟩
  exact ⟨hzero, hwf, hext, hnone, hevents.1, hevents.2⟩

end Sys2Proof.Machine
end

section
/-! PROOFS. Decoding and encoding (30_encoding.md sections 1 to 3 and 6): a code and its instruction determine each
other, and the opcode table agrees. -/

namespace Sys2Proof

theorem decodeWord_of_le {w : Word} (h : 16 ≤ w.toNat) : decodeWord w = .ext w := if_neg (Nat.not_lt.2 h)

/-- A GUARD word is its low bits, zero-extended (R92). -/
theorem setWidth_extractLsb'_of_lt {w : Word} (h : w.toNat < 16) : (w.extractLsb' 0 4).setWidth 32 = w := by
  apply BitVec.eq_of_toNat_eq
  simp only [BitVec.toNat_setWidth, BitVec.extractLsb'_toNat, Nat.shiftRight_zero]
  omega

theorem decodeWord_setWidth (low : BitVec 4) : decodeWord (low.setWidth 32) = .guard low := by
  have hlow := low.isLt
  have hval : (low.setWidth 32).toNat = low.toNat := by
    rw [BitVec.toNat_setWidth]; omega
  rw [Machine.decodeWord_of_lt (by omega)]
  congr 1
  apply BitVec.eq_of_toNat_eq
  rw [BitVec.extractLsb'_toNat, hval, Nat.shiftRight_zero]
  omega

/-- R101: the code of a well-formed instruction selects it. -/
theorem decode_encode {i : Instr} (h : i.wf = true) : decode (encode i) = i := by
  cases i with
  | guard low => exact decodeWord_setWidth low
  | ext w => exact decodeWord_of_le (by simpa [Instr.wf] using h)
  | _ => rfl

/-- R101: every code is the code of the instruction it selects. -/
theorem encode_decode (code : Code) : encode (decode code) = code := by
  cases code with
  | word w =>
    by_cases h : w.toNat < 16
    · rw [decode, Machine.decodeWord_of_lt h, encode, setWidth_extractLsb'_of_lt h]
    · rw [decode, decodeWord_of_le (Nat.not_lt.1 h), encode]
  | cond4 c =>
    refine Machine.condCode_forall (P := fun c => encode (decode (.cond4 c)) = .cond4 c) (fun n => ?_) c
    fin_cases n <;> rfl

theorem wf_decode (code : Code) : (decode code).wf = true := by
  cases code with
  | word w =>
    by_cases h : w.toNat < 16
    · rw [decode, Machine.decodeWord_of_lt h, Instr.wf]
    · rw [decode, decodeWord_of_le (Nat.not_lt.1 h), Instr.wf, decide_eq_true (Nat.not_lt.1 h)]
  | cond4 c =>
    refine Machine.condCode_forall (P := fun c => (decode (.cond4 c)).wf = true) (fun n => ?_) c
    fin_cases n <;> rfl

/-- The opcode table has every instruction's own row first among those that match its code. -/
theorem tableMnemonic_encode (i : Instr) : Laws.TableRow.Statement i := by
  cases i with
  | guard low => exact Laws.TableRow.guard low
  | ext w => exact Laws.TableRow.ext w
  | cond0 => exact Laws.TableRow.cond0
  | cond1 => exact Laws.TableRow.cond1
  | cond2 => exact Laws.TableRow.cond2
  | cond3 => exact Laws.TableRow.cond3
  | cond4 => exact Laws.TableRow.cond4
  | cond5 => exact Laws.TableRow.cond5
  | cond6 => exact Laws.TableRow.cond6
  | cond7 => exact Laws.TableRow.cond7
  | cond8 => exact Laws.TableRow.cond8
  | cond9 => exact Laws.TableRow.cond9
  | cond10 => exact Laws.TableRow.cond10
  | cond11 => exact Laws.TableRow.cond11
  | cond12 => exact Laws.TableRow.cond12
  | cond13 => exact Laws.TableRow.cond13
  | cond14 => exact Laws.TableRow.cond14
  | cond15 => exact Laws.TableRow.cond15

/-- The byte decoder reads back a word's four bytes (R90). -/
theorem decodeBytes_wordBytes (w : Word) : decodeBytes (wordBytes w) = .ok (decode (.word w)) := by
  rw [wordBytes, decodeBytes, Machine.joinBytes_wordByte, decode]

/-- Settles O1: an instruction that has bytes has those of its code, which is a word. -/
theorem decodeOfEncodeIsTheInstruction : Obligations.DecodeOfEncodeIsTheInstruction := by
  intro i hwf
  refine ⟨decode_encode hwf, fun bytes hbytes => ?_⟩
  cases hcode : encode i with
  | word w =>
    obtain rfl : wordBytes w = bytes := by simpa [encodeBytes, hcode] using hbytes
    exact ⟨rfl, by rw [decodeBytes_wordBytes, ← hcode, decode_encode hwf]⟩
  | cond4 c => simp [encodeBytes, hcode] at hbytes

/-- Settles O2: a code is that of its instruction, so the table's row for the one is its row for the other. -/
theorem decodeFollowsTheOpcodeTable : Obligations.DecodeFollowsTheOpcodeTable := by
  intro code
  have hrow := tableMnemonic_encode (decode code) (wf_decode code)
  rw [encode_decode] at hrow
  exact ⟨encode_decode code, wf_decode code, hrow⟩

/-- Settles O3: closed words, bytes and codes. -/
theorem sampleCodesDecode : Obligations.SampleCodesDecode :=
  ⟨rfl, rfl, rfl, rfl, rfl, rfl, rfl, rfl, rfl⟩

end Sys2Proof
end

section
/-! PROOFS. The keyboard (43_char_io.md section 3): the characters a pass takes are the answers of its reads at the
sentinel. What a stretch of a run delivers composes, so each function of the model has one lemma. -/

namespace Sys2Proof.Machine

/-! ### The characters to come -/

theorem State.keysToCome_congr {s t : State} (hkbd : t.kbd = s.kbd) (henv : t.env = s.env) :
    t.keysToCome = s.keysToCome := by
  rw [State.keysToCome, hkbd, henv, State.keysToCome]

/-- An append moves characters from the schedule to the queue, in order (R195). -/
theorem keysToCome_envTurn (s : State) : (envTurn s).keysToCome = s.keysToCome := by
  rcases envTurn_cases s with ⟨-, hturn⟩ | ⟨batch, later, henv, hturn⟩
  · rw [hturn]
  · rw [hturn, State.keysToCome, State.keysToCome, henv]
    simp

/-! ### What a stretch of a run delivers -/

/-- From `s` to `t` the characters taken off the front of those to come are the answers, in order, of the reads that
found one pending; the other reads answered 0. -/
def Delivers (s : State) (reads : List SentinelRead) (t : State) : Prop :=
  (∃ taken : List Byte, s.keysToCome = taken ++ t.keysToCome ∧
    taken.map (fun b => b.setWidth 32) = (reads.filter SentinelRead.queued).map SentinelRead.answer) ∧
  ∀ r ∈ reads, r.queued = false → r.answer = 0#32

theorem Delivers.none_of_eq {s t : State} (h : t.keysToCome = s.keysToCome) : Delivers s [] t :=
  ⟨⟨[], h.symm, rfl⟩, nofun⟩

theorem Delivers.append {s t u : State} {reads reads' : List SentinelRead} (h : Delivers s reads t)
    (h' : Delivers t reads' u) : Delivers s (reads ++ reads') u := by
  obtain ⟨⟨taken, hkeys, htaken⟩, hzero⟩ := h
  obtain ⟨⟨taken', hkeys', htaken'⟩, hzero'⟩ := h'
  refine ⟨⟨taken ++ taken', ?_, ?_⟩, fun r hr => ?_⟩
  · rw [hkeys, hkeys', List.append_assoc]
  · rw [List.map_append, htaken, htaken', List.filter_append, List.map_append]
  · exact (List.mem_append.1 hr).elim (hzero r) (hzero' r)

/-- A stretch may be entered from any state with the same characters to come. -/
theorem Delivers.of_eq {s s' t : State} {reads : List SentinelRead} (hkeys : s'.keysToCome = s.keysToCome)
    (h : Delivers s' reads t) : Delivers s reads t := by
  rwa [Delivers, hkeys] at h

theorem Delivers.from_envTurn {s t : State} {reads : List SentinelRead} (h : Delivers (envTurn s) reads t) :
    Delivers s reads t := h.of_eq (keysToCome_envTurn s)

/-- A completed read delivers what it answers: at the sentinel the front character or, with none queued, 0; elsewhere
nothing (R193, 20_memory.md R58). -/
theorem delivers_memRead {c : Config} {addr v : Word} {s t : State} (h : memRead c addr s = .completed v t) :
    Delivers s (readAtSentinel c addr s.kbd v) t := by
  unfold readAtSentinel
  rcases memRead_completed h with ⟨hio, b, hk, rfl⟩ | ⟨hio, -, -, rfl⟩
  · rw [if_pos hio]
    rcases kbdRead_cases hk with ⟨hkbd, ht⟩ | ⟨hkbd, -, rfl, rfl⟩
    · rw [hkbd]
      refine ⟨⟨[b], ?_, rfl⟩, by simp⟩
      rw [ht, State.keysToCome, hkbd]
      rfl
    · rw [hkbd]
      exact ⟨⟨[], rfl, rfl⟩, by simp⟩
  · rw [hio]
    exact .none_of_eq rfl

theorem keysToCome_memWrite {c : Config} {addr v : Word} {u : Unit} {s t : State}
    (h : memWrite c addr v s = .completed u t) : t.keysToCome = s.keysToCome :=
  State.keysToCome_congr (memWrite_kbd h) (congrArg State.env (memWrite_frame h).1 :)

theorem keysToCome_setReg (s : State) (i : RegIndex) (v : Word) : (s.setReg i v).keysToCome = s.keysToCome :=
  State.keysToCome_congr (State.setReg_kbd s i v) (State.setReg_env s i v)

theorem runBehaviour_delivers (c : Config) (b : Behaviour) (answers : List Answer) (s : State) :
    Delivers s (sentinelReads c b s) (runBehaviour c b answers s) := by
  induction b generalizing answers s with
  | done => exact .none_of_eq rfl
  | regGet i k ih => exact (ih _ _ _).from_envTurn
  | regSet i v k ih => exact ((ih _ _).of_eq (keysToCome_setReg _ i v)).from_envTurn
  | flagGet f k ih => exact (ih _ _ _).from_envTurn
  | flagSet f b k ih =>
    have hkeys : ((envTurn s).setFlag f b).keysToCome = (envTurn s).keysToCome := rfl
    exact ((ih _ _).of_eq hkeys).from_envTurn
  | busRead addr k ih =>
    simp only [runBehaviour, sentinelReads]
    refine Delivers.from_envTurn ?_
    cases h : memRead c addr (envTurn s) with
    | completed v t => exact (delivers_memRead h).append (ih _ _ _)
    | faulted t => obtain ⟨-, -, rfl⟩ := memRead_faulted h; exact .none_of_eq rfl
    | waits => exact .none_of_eq rfl
  | busWrite addr v k ih =>
    simp only [runBehaviour, sentinelReads]
    refine Delivers.from_envTurn ?_
    cases h : memWrite c addr v (envTurn s) with
    | completed u t => exact (ih _ _).of_eq (keysToCome_memWrite h)
    | faulted t => obtain ⟨-, -, rfl⟩ := memWrite_faulted h; exact .none_of_eq rfl
    | waits => exact absurd h (memWrite_ne_waits c addr v _)
  | haltRequest => exact .none_of_eq (keysToCome_envTurn s)

theorem cycleWord_delivers (c : Config) (w : Word) (s : State) : Delivers s (cycleReads c w s) (cycleWord c w s) := by
  unfold cycleReads
  by_cases hw : 16 ≤ w.toNat
  · have hdecoded : (setCurrent w (advance s)).keysToCome = s.keysToCome :=
      State.keysToCome_congr (by simp) (by simp)
    cases hpass : condPass (c.decode w).cond s.flags with
    | true =>
      rw [cycleWord_of_condPass hw hpass, if_pos ⟨hw, rfl⟩]
      refine (runBehaviour_delivers c _ _ _).of_eq ?_
      exact (State.keysToCome_congr (traceText_kbd c _ _) (traceText_env c _ _)).trans hdecoded
    | false =>
      rw [cycleWord_of_condPass_false hw hpass, if_neg (by simp)]
      exact .none_of_eq hdecoded
  · rw [cycleWord_of_guard (Nat.not_le.1 hw), if_neg fun h => hw h.1]
    exact .none_of_eq rfl

theorem resumeBehaviour_delivers {c : Config} {answers : List Answer} {s : State} (hh : s.halted = false)
    (hw : s.wait = some (.behaviour answers)) :
    Delivers s (heldReads c s) (resumeBehaviour c answers { envTurn s with wait := none }) := by
  refine Delivers.from_envTurn ?_
  cases hcur : s.cur with
  | none =>
    simp only [heldReads, resumeBehaviour, hh, hw, hcur, envTurn_cur]
    exact .none_of_eq rfl
  | some w =>
    simp only [heldReads, resumeBehaviour, hh, hw, hcur, envTurn_cur]
    refine .of_eq ?_ (runBehaviour_delivers c _ _ _)
    rfl

/-- A pass that holds no behaviour back has no reads but the fetch's and its cycle's. -/
theorem heldReads_eq_nil {c : Config} {s : State}
    (h : ∀ answers, s.halted = false → s.wait ≠ some (.behaviour answers)) :
    heldReads c s = [] := by
  unfold heldReads
  split
  · next answers _ hh hw _ => exact absurd hw (h answers hh)
  · rfl

/-- A pass whose boundary ends it. -/
theorem delivers_of_settled {c : Config} {s t : State} (hboundary : boundary c s = .settled t)
    (h : Delivers s (heldReads c s) t) : Delivers s (passReads c s) (engineLoop c s) := by
  rw [passReads, engineLoop, hboundary]
  exact h

/-- A pass that fetches, from a state that differs from the one after the environment's turn in the held mark at
most. -/
theorem delivers_of_fetch {c : Config} {s u : State} (hboundary : boundary c s = fetch c u) (hpc : u.pc = s.pc)
    (hkbd : u.kbd = (envTurn s).kbd) (henv : u.env = (envTurn s).env)
    (hheld : heldReads c s = []) : Delivers s (passReads c s) (engineLoop c s) := by
  have hkeys : u.keysToCome = s.keysToCome := (State.keysToCome_congr hkbd henv).trans (keysToCome_envTurn s)
  rcases fetch_cases c u with ⟨w, t, hread, hfetch⟩ | ⟨-, hfetch⟩ | ⟨-, hfetch⟩
  · rw [passReads, engineLoop, hboundary, hfetch, ← hpc, ← hkbd]
    exact ((delivers_memRead hread).append (cycleWord_delivers c w t)).of_eq hkeys
  · refine delivers_of_settled (hboundary.trans hfetch) ?_
    rw [hheld]
    exact .none_of_eq hkeys
  · refine delivers_of_settled (hboundary.trans hfetch) ?_
    rw [hheld]
    exact .none_of_eq hkeys

theorem engineLoop_delivers (c : Config) (s : State) : Delivers s (passReads c s) (engineLoop c s) := by
  rcases boundary_cases c s with ⟨hh, h⟩ | ⟨hh, answers, hw, h⟩ | ⟨-, hw, h⟩ | ⟨-, hw, -, h⟩ | ⟨-, hw, -, h⟩
  · refine delivers_of_settled h ?_
    rw [heldReads_eq_nil (by simp [hh])]
    exact .none_of_eq (keysToCome_envTurn s)
  · exact delivers_of_settled h (resumeBehaviour_delivers hh hw)
  · exact delivers_of_fetch h (pc_envTurn s) rfl rfl (heldReads_eq_nil (by simp [hw]))
  · refine delivers_of_settled h ?_
    rw [heldReads_eq_nil (by simp [hw])]
    exact .none_of_eq (keysToCome_envTurn s)
  · exact delivers_of_fetch h (pc_envTurn s) rfl rfl (heldReads_eq_nil (by simp [hw]))

/-- Settles O49: every function of a pass delivers what it reads, and a halted machine reads nothing. -/
theorem charactersAreDeliveredInOrder : Obligations.CharactersAreDeliveredInOrder := by
  refine ⟨step_eq_engineLoop, ?_⟩
  intro c s t reads
  have hdelivers : Delivers s reads t := engineLoop_delivers c s
  refine ⟨hdelivers.1, hdelivers.2, fun hh => ?_⟩
  have hboundary := boundary_of_halted (c := c) hh
  constructor
  · simp only [reads, passReads, hboundary]
    exact heldReads_eq_nil (by simp [hh])
  · simp only [t, engineLoop, hboundary]
    exact keysToCome_envTurn s

end Sys2Proof.Machine
end

section
/-! PROOFS. What is never read (10_state.md sections 5 and 7, 43_char_io.md section 2): two machines that differ in the
outputs and in `cur`, or in the trace and the verbose setting, stay so. One relation states both, and each function of
the model has one lemma about it. -/

namespace Sys2Proof.Machine

/-- What the core writes for an observer only: the output streams (10_state.md R38) and `cur` (R31). -/
structure Observed where
  out : List Byte
  diag : List Diag
  trace : List String
  cur : Option Word

def State.withObserved (s : State) (u : Observed) : State :=
  { s with out := u.out, diag := u.diag, trace := u.trace, cur := u.cur }

/-- Two states that differ in what is written for an observer at most; under `traceOnly`, in the trace at most. -/
def Agree (traceOnly : Prop) (s s' : State) : Prop :=
  ∃ u : Observed, s' = s.withObserved u ∧ (traceOnly → u.out = s.out ∧ u.diag = s.diag ∧ u.cur = s.cur)

theorem agree_false_iff {s s' : State} : Agree False s s' ↔ s.unobserved = s'.unobserved := by
  constructor
  · rintro ⟨u, rfl, -⟩
    rfl
  · intro h
    refine ⟨⟨s'.out, s'.diag, s'.trace, s'.cur⟩, ?_, nofun⟩
    cases s; cases s'
    simp_all [State.unobserved, State.withObserved]

theorem agree_true_iff {s s' : State} :
    Agree True s s' ↔ ({ s with trace := [] } : State) = { s' with trace := [] } := by
  constructor
  · rintro ⟨⟨out, diag, trace, cur⟩, rfl, hsame⟩
    obtain ⟨rfl, rfl, rfl⟩ := hsame trivial
    rfl
  · intro h
    refine ⟨⟨s.out, s.diag, s'.trace, s.cur⟩, ?_, fun _ => ⟨rfl, rfl, rfl⟩⟩
    cases s; cases s'
    simp_all [State.withObserved]

section
variable {traceOnly : Prop} {s s' : State}

/-! ### The operations (42_execute_interface.md section 2) -/

theorem Agree.envTurn (h : Agree traceOnly s s') : Agree traceOnly (envTurn s) (envTurn s') := by
  obtain ⟨u, rfl, hsame⟩ := h
  refine ⟨u, ?_, by simpa using hsame⟩
  rw [envTurn_eq, envTurn_eq]
  rfl

theorem Agree.setReg (h : Agree traceOnly s s') (i : RegIndex) (v : Word) :
    Agree traceOnly (s.setReg i v) (s'.setReg i v) := by
  obtain ⟨u, rfl, hsame⟩ := h
  refine ⟨u, ?_, by simpa using hsame⟩
  unfold State.setReg
  split <;> rfl

theorem Agree.setFlag (h : Agree traceOnly s s') (f : Flag) (b : Bool) :
    Agree traceOnly (s.setFlag f b) (s'.setFlag f b) := by
  obtain ⟨u, rfl, hsame⟩ := h
  exact ⟨u, rfl, hsame⟩

theorem Agree.reg (h : Agree traceOnly s s') (i : RegIndex) : s'.reg i = s.reg i := by
  obtain ⟨u, rfl, -⟩ := h
  rfl

theorem Agree.flags (h : Agree traceOnly s s') : s'.flags = s.flags := by
  obtain ⟨u, rfl, -⟩ := h
  rfl

theorem Agree.wait (h : Agree traceOnly s s') : s'.wait = s.wait := by
  obtain ⟨u, rfl, -⟩ := h
  rfl

theorem Agree.withWait (h : Agree traceOnly s s') (wait : Option Waiting) :
    Agree traceOnly { s with wait := wait } { s' with wait := wait } := by
  obtain ⟨u, rfl, hsame⟩ := h
  exact ⟨u, rfl, hsame⟩

theorem Agree.haltWith (h : Agree traceOnly s s') (cause : Option Diag) :
    Agree traceOnly (haltWith cause s) (haltWith cause s') := by
  obtain ⟨u, rfl, hsame⟩ := h
  refine ⟨{ u with diag := u.diag ++ cause.toList }, rfl, fun ht => ?_⟩
  obtain ⟨hout, hdiag, hcur⟩ := hsame ht
  exact ⟨hout, by rw [hdiag, haltWith_diag], hcur⟩

/-- The verbose setting decides about the trace alone (43_char_io.md R192). -/
theorem Agree.traceText (c : Config) (verbose : Bool) (text : String) (h : Agree traceOnly s s') :
    Agree traceOnly (traceText c text s) (traceText { c with verbose } text s') := by
  obtain ⟨u, rfl, hsame⟩ := h
  refine ⟨{ u with trace := (Machine.traceText { c with verbose } text (s.withObserved u)).trace }, ?_, ?_⟩
  · rw [traceText_eq_with_trace, traceText_eq_with_trace c]
    rfl
  · simpa using hsame

/-- Two accesses that end the same way, with the same result, in states that agree. -/
inductive AccessAgree (traceOnly : Prop) {α : Type} : Access α → Access α → Prop
  | completed (v : α) {t t' : State} (h : Agree traceOnly t t') :
      AccessAgree traceOnly (.completed v t) (.completed v t')
  | faulted {t t' : State} (h : Agree traceOnly t t') : AccessAgree traceOnly (.faulted t) (.faulted t')
  | waits : AccessAgree traceOnly .waits .waits

theorem Agree.kbdRead (c : Config) (h : Agree traceOnly s s') :
    (kbdRead c s = none ∧ kbdRead c s' = none) ∨
    ∃ b t t', kbdRead c s = some (b, t) ∧ kbdRead c s' = some (b, t') ∧ Agree traceOnly t t' := by
  obtain ⟨u, rfl, hsame⟩ := h
  unfold Machine.kbdRead
  cases hkbd : s.kbd with
  | cons b rest =>
    simp only [State.withObserved, hkbd]
    exact .inr ⟨b, _, _, rfl, rfl, u, rfl, hsame⟩
  | nil =>
    simp only [State.withObserved, hkbd]
    cases c.kbdStrategy with
    | buffered => exact .inr ⟨_, _, _, rfl, rfl, u, by rw [State.withObserved, hkbd], hsame⟩
    | blocking => exact .inl ⟨rfl, rfl⟩

theorem Agree.memRead (c : Config) (verbose : Bool) (addr : Word) (h : Agree traceOnly s s') :
    AccessAgree traceOnly (memRead c addr s) (memRead { c with verbose } addr s') := by
  have hmem : s'.mem = s.mem := by obtain ⟨u, rfl, -⟩ := h; rfl
  change AccessAgree traceOnly _ (Machine.memRead c addr s')
  unfold Machine.memRead
  rw [hmem]
  split
  · rcases h.kbdRead c with ⟨hs, hs'⟩ | ⟨b, t, t', hs, hs', ht⟩
    · rw [hs, hs']; exact .waits
    · rw [hs, hs']; exact .completed _ ht
  · split
    · exact .completed _ h
    · exact .faulted (h.haltWith _)

theorem Agree.memWrite (c : Config) (verbose : Bool) (addr v : Word) (h : Agree traceOnly s s') :
    AccessAgree traceOnly (memWrite c addr v s) (memWrite { c with verbose } addr v s') := by
  obtain ⟨u, rfl, hsame⟩ := h
  change AccessAgree traceOnly _ (Machine.memWrite c addr v (s.withObserved u))
  unfold Machine.memWrite
  split
  · refine .completed _ ⟨{ u with out := u.out ++ [v.extractLsb' 0 8] }, rfl, fun ht => ?_⟩
    obtain ⟨hout, hdiag, hcur⟩ := hsame ht
    exact ⟨by rw [hout, charOut_out], hdiag, hcur⟩
  · change AccessAgree traceOnly _ (if s.mem.valid addr = true then _ else _)
    split
    · exact .completed _ ⟨u, rfl, hsame⟩
    · exact .faulted (Agree.haltWith ⟨u, rfl, hsame⟩ _)

/-! ### A behaviour, a cycle, a pass -/

theorem runBehaviour_agree (c : Config) (verbose : Bool) (b : Behaviour) (answers : List Answer)
    (h : Agree traceOnly s s') :
    Agree traceOnly (runBehaviour c b answers s) (runBehaviour { c with verbose } b answers s') := by
  induction b generalizing answers s s' with
  | done => exact h
  | regGet i k ih =>
    simp only [runBehaviour, h.envTurn.reg]
    exact ih _ _ h.envTurn
  | regSet i v k ih => exact ih _ (h.envTurn.setReg i v)
  | flagGet f k ih =>
    simp only [runBehaviour, h.envTurn.flags]
    exact ih _ _ h.envTurn
  | flagSet f b k ih => exact ih _ (h.envTurn.setFlag f b)
  | busRead addr k ih =>
    have haccess := h.envTurn.memRead c verbose addr
    simp only [runBehaviour]
    generalize memRead c addr (envTurn s) = a, memRead { c with verbose } addr (envTurn s') = a' at haccess ⊢
    cases haccess with
    | completed v ht => exact ih _ _ ht
    | faulted ht => exact ht
    | waits => exact h.envTurn.withWait _
  | busWrite addr v k ih =>
    have haccess := h.envTurn.memWrite c verbose addr v
    simp only [runBehaviour]
    generalize memWrite c addr v (envTurn s) = a, memWrite { c with verbose } addr v (envTurn s') = a' at haccess ⊢
    cases haccess with
    | completed _ ht => exact ih _ ht
    | faulted ht => exact ht
    | waits => exact h.envTurn.withWait _
  | haltRequest => exact h.envTurn.haltWith none

theorem Agree.setCurrent (h : Agree traceOnly s s') (w : Word) :
    Agree traceOnly (setCurrent w s) (setCurrent w s') := by
  obtain ⟨u, rfl, hsame⟩ := h
  exact ⟨{ u with cur := some w }, rfl, fun ht => ⟨(hsame ht).1, (hsame ht).2.1, rfl⟩⟩

theorem Agree.advance (h : Agree traceOnly s s') : Agree traceOnly (advance s) (advance s') := by
  have hpc : s'.pc = s.pc := h.reg 15#4
  rw [Machine.advance, Machine.advance, hpc]
  exact h.setReg _ _

theorem cycleWord_agree (c : Config) (verbose : Bool) (w : Word) (h : Agree traceOnly s s') :
    Agree traceOnly (cycleWord c w s) (cycleWord { c with verbose } w s') := by
  have hdecoded := h.advance.setCurrent w
  unfold cycleWord
  split
  · exact h.haltWith _
  · simp only [hdecoded.flags]
    split
    · exact runBehaviour_agree c verbose _ _ (hdecoded.traceText c verbose _)
    · exact hdecoded

/-- A held behaviour goes on from `cur`, so there the two must not differ. -/
theorem resumeBehaviour_agree (c : Config) (verbose : Bool) (answers : List Answer) (ht : traceOnly)
    (h : Agree traceOnly s s') :
    Agree traceOnly (resumeBehaviour c answers s) (resumeBehaviour { c with verbose } answers s') := by
  have hcur : s'.cur = s.cur := by
    obtain ⟨u, rfl, hsame⟩ := h
    exact (hsame ht).2.2
  unfold resumeBehaviour
  rw [hcur]
  split
  · exact runBehaviour_agree c verbose _ _ h
  · exact h

/-- Two boundaries that have the same word fetched, or end the pass, in states that agree. -/
inductive BoundaryAgree (traceOnly : Prop) : Boundary → Boundary → Prop
  | settled {t t' : State} (h : Agree traceOnly t t') : BoundaryAgree traceOnly (.settled t) (.settled t')
  | fetched (w : Word) {t t' : State} (h : Agree traceOnly t t') :
      BoundaryAgree traceOnly (.fetched w t) (.fetched w t')

theorem fetch_agree (c : Config) (verbose : Bool) (h : Agree traceOnly s s') :
    BoundaryAgree traceOnly (fetch c s) (fetch { c with verbose } s') := by
  have haccess := h.memRead c verbose s.pc
  have hpc : s'.pc = s.pc := h.reg 15#4
  unfold fetch
  rw [hpc]
  generalize memRead c s.pc s = a, memRead { c with verbose } s.pc s' = a' at haccess ⊢
  cases haccess with
  | completed w ht => exact .fetched w ht
  | faulted ht => exact .settled ht
  | waits => exact .settled (h.withWait _)

theorem boundary_agree (c : Config) (verbose : Bool) (hheld : traceOnly ∨ s.wait = none) (h : Agree traceOnly s s') :
    BoundaryAgree traceOnly (boundary c s) (boundary { c with verbose } s') := by
  have hturn := h.envTurn
  have hhalted : (envTurn s').halted = (envTurn s).halted := by obtain ⟨u, hu, -⟩ := hturn; rw [hu]; rfl
  have hstop : (envTurn s').stopPending = (envTurn s).stopPending := by obtain ⟨u, hu, -⟩ := hturn; rw [hu]; rfl
  have hgoesOn := hturn.withWait none
  simp only [hhalted, hstop] at hgoesOn
  simp only [boundary, hhalted, hstop, hturn.wait]
  split
  · exact .settled hturn
  · split
    · next answers hw =>
      rw [envTurn_wait] at hw
      have ht : traceOnly := hheld.resolve_right (by simp [hw])
      exact .settled (resumeBehaviour_agree c verbose answers ht hgoesOn)
    · exact fetch_agree c verbose hgoesOn
    · split
      · exact .settled (hturn.haltWith _)
      · exact fetch_agree c verbose hturn

theorem engineLoop_agree (c : Config) (verbose : Bool) (hheld : traceOnly ∨ s.wait = none) (h : Agree traceOnly s s') :
    Agree traceOnly (engineLoop c s) (engineLoop { c with verbose } s') := by
  have hboundary := boundary_agree c verbose hheld h
  unfold engineLoop
  generalize boundary c s = a, boundary { c with verbose } s' = a' at hboundary ⊢
  cases hboundary with
  | settled ht => exact ht
  | fetched w ht => exact cycleWord_agree c verbose w ht

end

/-! ### The statements -/

/-- Settles O50: at a boundary no held behaviour goes on, so `cur` may differ too. -/
theorem outputsAndCurAreNeverRead : Obligations.OutputsAndCurAreNeverRead := by
  intro s s' t t' hboundary hsame hstep hstep'
  obtain rfl := step_eq_next_iff.1 hstep
  obtain rfl := step_eq_next_iff.1 hstep'
  exact agree_false_iff.1 (engineLoop_agree params params.verbose (.inr hboundary) (agree_false_iff.2 hsame))

/-- Settles O51: the two states differ in the trace at most, held or not. -/
theorem verboseChangesTheTraceOnly : Obligations.VerboseChangesTheTraceOnly := by
  intro c v s s' hsame
  exact (agree_true_iff.1 (engineLoop_agree c v (.inl trivial) (agree_true_iff.2 hsame.symm))).symm

end Sys2Proof.Machine
end

section
/-! PROOFS. Reset and load (70_reset_and_hazards.md section 1, 10_state.md section 8): the image in memory, the other
fields, the invariant, and the first step of a degenerate machine. -/

namespace Sys2Proof.Machine

/-! ### The load (R252) -/

theorem Memory.byte_load_outside {ws : List Word} {m : Memory} {a x : Nat} (h : m.wf = true)
    (hfit : a + 4 * ws.length ≤ m.size) (hx : x < a ∨ a + 4 * ws.length ≤ x) : (m.load a ws).byte x = m.byte x := by
  induction ws generalizing m a with
  | nil => rfl
  | cons w ws ih =>
    rw [List.length_cons] at hfit hx
    have hinside : a + 3 < m.size := by omega
    rw [Memory.load, ih (Memory.wf_writeWord h hinside w) (by rw [Memory.writeWord_size]; omega) (by omega),
      Memory.byte_writeWord_outside h hinside w (by omega)]

theorem Memory.byte_load_inside {ws : List Word} {m : Memory} {a k j : Nat} (h : m.wf = true)
    (hfit : a + 4 * ws.length ≤ m.size) (hk : k < ws.length) (hj : j < 4) :
    (m.load a ws).byte (a + 4 * k + j) = wordByte ws[k] j := by
  induction ws generalizing m a k with
  | nil => cases hk
  | cons w ws ih =>
    rw [List.length_cons] at hfit hk
    have hinside : a + 3 < m.size := by omega
    have hwf := Memory.wf_writeWord h hinside w
    have hfit' : a + 4 + 4 * ws.length ≤ (m.writeWord a w).size := by rw [Memory.writeWord_size]; omega
    cases k with
    | zero =>
      rw [Memory.load, Memory.byte_load_outside hwf hfit' (by omega), Nat.mul_zero, Nat.add_zero,
        Memory.byte_writeWord_inside h hinside w hj, List.getElem_cons_zero]
    | succ k =>
      rw [Memory.load, show a + 4 * (k + 1) + j = a + 4 + 4 * k + j by omega, ih hwf hfit' (by omega),
        List.getElem_cons_succ]

/-- Memory before the load is zero and large enough for the image (R251, R252). -/
theorem wf_zeroed_of_resetArgsWf {memCfg : Nat} {image : List Word} (h : resetArgsWf memCfg image = true) :
    (Memory.zeroed (max memCfg (4 * image.length))).wf = true ∧
    0 + 4 * image.length ≤ (Memory.zeroed (max memCfg (4 * image.length))).size := by
  obtain ⟨hmod, hcfg, himage⟩ := (resetArgsWf_iff memCfg image).1 h
  refine ⟨Memory.wf_zeroed ?_ (max_le hcfg himage), ?_⟩
  · omega
  · rw [Memory.zeroed, Nat.zero_add]
    exact le_max_right _ _

/-- Settles O54: the load writes each word once, into zero memory. -/
theorem resetLoadsTheImage : Obligations.ResetLoadsTheImage := by
  intro memCfg image hlegal
  obtain ⟨hwf, hfit⟩ := wf_zeroed_of_resetArgsWf hlegal
  refine ⟨fun k hk => ?_, fun a ha => ?_⟩
  · have hbyte : ∀ j < 4, (State.resetWith memCfg image).mem.byte (4 * k + j) = wordByte image[k] j := by
      intro j hj
      rw [← Nat.zero_add (4 * k)]
      exact Memory.byte_load_inside hwf hfit hk hj
    exact ⟨hbyte 0 (by omega), hbyte 1 (by omega), hbyte 2 (by omega), hbyte 3 (by omega)⟩
  · exact Memory.byte_load_outside hwf hfit (.inr (by rwa [Nat.zero_add]))

/-! ### The other fields (R254, 10_state.md R39) -/

theorem State.resetWith_reg (memCfg : Nat) (image : List Word) {i : RegIndex} (hi : i ≠ 14#4) :
    (State.resetWith memCfg image).reg i = 0#32 := by
  have hne : 14 ≠ i.toNat := fun h => hi (BitVec.eq_of_toNat_eq h.symm)
  simp [State.reg, State.resetWith, Vector.getElem_set_ne, hne]

/-- Settles O55. -/
theorem resetLeavesTheRest : Obligations.ResetLeavesTheRest := by
  intro memCfg image s
  refine ⟨fun i => State.resetWith_reg memCfg image, State.resetWith_reg memCfg image (by decide), fun f => ?_,
    rfl, rfl, rfl, rfl, rfl, rfl⟩
  cases f <;> rfl

/-! ### The invariant (10_state.md section 9) -/

/-- The load-time warning is no halting event (R251). -/
theorem State.resetWith_haltEvents (memCfg : Nat) (image : List Word) :
    (State.resetWith memCfg image).haltEvents = [] := by
  unfold State.haltEvents
  by_cases h : memCfg < 4 * image.length
  · rw [State.resetWith_diag_of_lt h]; rfl
  · rw [State.resetWith_diag_of_le (Nat.not_lt.1 h)]; rfl

theorem State.resetWith_inv {memCfg : Nat} {image : List Word} (h : resetArgsWf memCfg image = true) :
    (State.resetWith memCfg image).Inv := by
  obtain ⟨hwf, hfit⟩ := wf_zeroed_of_resetArgsWf h
  exact
    { zeroSlot := rfl
      memWf := Memory.wf_load hwf hfit
      curExt := nofun
      noWait := rfl
      oneHalt := by rw [State.resetWith_haltEvents]; exact Nat.zero_le 1
      runningClean := fun _ => State.resetWith_haltEvents memCfg image }

/-- Settles O47: the open memory size is legal by its type. -/
theorem resetHasTheInvariant : Obligations.ResetHasTheInvariant := by
  refine ⟨fun memCfg image => State.resetWith_inv, State.resetWith_inv ?_⟩
  have hmax := Config.openMemCfgWords.isLt
  rw [resetArgsWf_iff]
  exact ⟨Nat.mul_mod_right 4 _, by omega, by simp⟩

/-! ### The first step (R255) -/

theorem Memory.zeroed_readWord (size a : Nat) : (Memory.zeroed size).readWord a = 0#32 := by
  simp only [Memory.readWord, Memory.zeroed_byte]
  decide

/-- No event is scheduled at reset, so a machine just reset fetches at once. -/
theorem State.boundary_resetWith (memCfg : Nat) (image : List Word) :
    boundary params (State.resetWith memCfg image) = fetch params (State.resetWith memCfg image) :=
  boundary_of_running rfl rfl rfl

theorem State.resetWith_pc (memCfg : Nat) (image : List Word) : (State.resetWith memCfg image).pc = 0#32 := rfl

/-- Memory with a whole word in it has the word 0 at address 0, which is a GUARD word. -/
theorem step_resetWith_nil {memCfg : Nat} (h : 4 ≤ memCfg) :
    step (State.resetWith memCfg []) =
      .next { State.resetWith memCfg [] with halted := true, diag := [.reservedLowValueGuard] } := by
  have hvalid : (State.resetWith memCfg []).mem.valid (State.resetWith memCfg []).pc = true := by
    rw [State.resetWith_pc, Memory.valid_iff, State.resetWith_mem_size]
    exact ⟨rfl, rfl, by simp; omega⟩
  have hfetched := (State.boundary_resetWith memCfg []).trans (fetch_of_valid hvalid)
  have hword : (State.resetWith memCfg []).mem.readWord (State.resetWith memCfg []).pc.toNat = 0#32 :=
    Memory.zeroed_readWord _ _
  rw [step_of_fetched hfetched, hword, decodeWord_of_lt (by decide), exec_guard,
    State.resetWith_diag_of_le (Nat.zero_le memCfg), List.nil_append]

/-- Settles O56: word 0 of memory, no memory, and a request that is looked at before the fetch. -/
theorem degenerateResets : Obligations.DegenerateResets := by
  refine ⟨fun memCfg => step_resetWith_nil, ?_, fun memCfg image => ?_⟩
  · have hsettled : boundary params (State.resetWith 0 []) = .settled (raiseAddressFault (State.resetWith 0 [])) :=
      (State.boundary_resetWith 0 []).trans (fetch_of_invalid (ne_ioAddr_of_msb rfl) rfl)
    exact step_of_settled hsettled
  · exact step_of_settled rfl

end Sys2Proof.Machine
end

section
/-! PROOFS. The condition rows (41_condition_codes.md section 2) and the truth table (section 3). -/

namespace Sys2Proof.Machine

/-- Settles O7: the table is finite, and the codes of a selector with and without the negation bit are complements
(R140). -/
theorem conditionTruthTable : Obligations.ConditionTruthTable := by
  refine ⟨condCode_forall (by decide), fun sel fl => ?_⟩
  rw [condPass_append, condPass_append, if_pos rfl, if_neg (by decide)]

/-- A row taken as an instruction, by its predicate: the test and execute steps under its code (R115, R116). -/
theorem next_testAndExecute {code : CondCode} {s : State} {p : Prop} [Decidable p]
    (h : condPass code s.flags = true ↔ p) :
    (.next (testAndExecute params code s) : Host.Outcome State Fault Refusal) =
      .next (if p then executeCurrent params s else s) := by
  rw [testAndExecute, if_congr h rfl rfl]

/-- Settles O9. -/
theorem zeroConditionRows : Obligations.ZeroConditionRows :=
  ⟨rfl, rfl, fun fl => ⟨condPass_code0 fl, condPass_code1 fl⟩, by decide, by decide, fun s =>
    ⟨next_testAndExecute (by simp), next_testAndExecute (by simp)⟩⟩

/-- Settles O10. -/
theorem carryConditionRows : Obligations.CarryConditionRows :=
  ⟨rfl, rfl, fun fl => ⟨condPass_code2 fl, condPass_code3 fl⟩, by decide, by decide, fun s =>
    ⟨next_testAndExecute (by simp), next_testAndExecute (by simp)⟩⟩

/-- Settles O11. -/
theorem negativeConditionRows : Obligations.NegativeConditionRows :=
  ⟨rfl, rfl, fun fl => ⟨condPass_code4 fl, condPass_code5 fl⟩, by decide, by decide, fun s =>
    ⟨next_testAndExecute (by simp), next_testAndExecute (by simp)⟩⟩

/-- Settles O12. -/
theorem overflowConditionRows : Obligations.OverflowConditionRows :=
  ⟨rfl, rfl, fun fl => ⟨condPass_code6 fl, condPass_code7 fl⟩, by decide, by decide, fun s =>
    ⟨next_testAndExecute (by simp), next_testAndExecute (by simp)⟩⟩

/-- Settles O13. -/
theorem carryAndNotZeroConditionRows : Obligations.CarryAndNotZeroConditionRows :=
  ⟨rfl, rfl, fun fl => ⟨condPass_code8 fl, by rw [condPass_code9, Bool.not_and, Bool.not_not]⟩, by decide, by decide,
    fun s => ⟨next_testAndExecute (by simp), next_testAndExecute (by simp)⟩⟩

/-- Settles O14. -/
theorem negativeEqualsOverflowConditionRows : Obligations.NegativeEqualsOverflowConditionRows :=
  ⟨rfl, rfl, fun fl => ⟨condPass_code10 fl, condPass_code11 fl⟩, by decide, by decide, fun s =>
    ⟨next_testAndExecute (by simp), next_testAndExecute (by simp)⟩⟩

/-- Settles O15. -/
theorem negativeEqualsOverflowNotZeroConditionRows : Obligations.NegativeEqualsOverflowNotZeroConditionRows :=
  ⟨rfl, rfl, fun fl => ⟨condPass_code12 fl, by rw [condPass_code13, Bool.not_and, Bool.not_not]; rfl⟩, by decide,
    by decide, fun s => ⟨next_testAndExecute (by simp), next_testAndExecute (by simp)⟩⟩

/-- Settles O16: the cycle is one whose condition fails (R115). -/
theorem neverAndAlwaysConditionRows : Obligations.NeverAndAlwaysConditionRows := by
  refine ⟨rfl, rfl, by decide, by decide, fun fl => ⟨condPass_code14 fl, condPass_code15 fl⟩, fun c w s hw hcond => ?_,
    fun s => ⟨rfl, rfl⟩⟩
  have hfail : condPass (c.decode w).cond s.flags = false := by rw [hcond, condPass_code14]
  rw [cycleWord_of_condPass_false hw hfail, setCurrent_advance]

/-- Settles O17. -/
theorem passingRowTracesThenRuns : Obligations.PassingRowTracesThenRuns :=
  fun _ _ => ⟨fun _ => executeCurrent_of_some, executeCurrent_of_none⟩

end Sys2Proof.Machine
end

section
/-! PROOFS. The cycle and the step (40_engine_cycle.md sections 1 to 3, 42_execute_interface.md section 2): the single
operations, the word that is fetched and run, and whole cycles of words with given behaviours. -/

namespace Sys2Proof.Machine

/-! ### The single operations (R172, R174, R113) -/

/-- Settles O5. -/
theorem flagWriteChangesOneFlag : Obligations.FlagWriteChangesOneFlag := by
  intro s f g b
  have hget := Flags.get_set s.flags f
  exact ⟨(hget f b).trans (if_pos rfl), fun hne => (hget g b).trans (if_neg hne), rfl⟩

/-- A bus read that completes after the environment's turn hands its word on (R175). -/
theorem runBehaviour_busRead {c : Config} {addr v : Word} {s t : State} (k : Word → Behaviour) (answers : List Answer)
    (h : memRead c addr (envTurn s) = .completed v t) :
    runBehaviour c (.busRead addr k) answers s = runBehaviour c (k v) (answers ++ [.word v]) t := by
  simp only [runBehaviour, h]

/-- A bus write that completes after the environment's turn goes on (R176). -/
theorem runBehaviour_busWrite {c : Config} {addr v : Word} {s t : State} (k : Behaviour) (answers : List Answer)
    (h : memWrite c addr v (envTurn s) = .completed () t) :
    runBehaviour c (.busWrite addr v k) answers s = runBehaviour c k answers t := by
  simp only [runBehaviour, h]

/-- A read that waits after the environment's turn holds its behaviour there. -/
theorem runBehaviour_waits {c : Config} {addr : Word} {s : State} (k : Word → Behaviour) (answers : List Answer)
    (h : memRead c addr (envTurn s) = .waits) :
    runBehaviour c (.busRead addr k) answers s = { envTurn s with wait := some (.behaviour answers) } := by
  simp only [runBehaviour, h]

/-- Settles O6: each is a branch of `runBehaviour`, and the environment's turn writes no register and no flag. -/
theorem registerAndFlagOperations : Obligations.RegisterAndFlagOperations := by
  intro c answers s i v f b kw kb k
  refine ⟨?_, rfl, ?_, rfl, fun addr u t => runBehaviour_busRead kw answers,
    fun addr u t => runBehaviour_busWrite k answers⟩
  · simp only [runBehaviour, reg_envTurn]
  · simp only [runBehaviour, envTurn_flags]

/-- Settles O22. -/
theorem advanceAddsFourModulo : Obligations.AdvanceAddsFourModulo := by
  intro s
  refine ⟨?_, fun i => reg_advance_of_ne s, State.setReg_eq_with_regs s 15#4 (s.pc + 4#32)⟩
  rw [advance_pc, BitVec.toNat_add]
  rfl

/-! ### A step by the word it runs (R110, R111) -/

/-- Settles O24. -/
theorem everyStepHasANextState : Obligations.EveryStepHasANextState := fun s => ⟨_, step_eq_engineLoop s⟩

/-- Settles O28. -/
theorem haltedMachineStaysHalted : Obligations.HaltedMachineStaysHalted := fun s hh =>
  ⟨step_eq_next_iff.2 (engineLoop_of_halted hh), envTurn_eq s⟩

/-- Settles O27. -/
theorem pendingRequestHaltsAtTheBoundary : Obligations.PendingRequestHaltsAtTheBoundary := by
  intro s hrunning hboundary hstop
  have hsettled : boundary params s = .settled (haltWith (some .externalInterrupt) (envTurn s)) := by
    simp [boundary, hrunning, hboundary, hstop]
  rw [step_of_settled hsettled, haltWith_some, envTurn_diag]

/-- At a boundary of a running machine with no request pending, the word that is read at the program counter runs. -/
theorem step_of_memRead {s t : State} {w : Word} (hrunning : s.halted = false) (hboundary : s.wait = none)
    (hnostop : (envTurn s).stopPending = false) (hread : memRead params s.pc (envTurn s) = .completed w t) :
    step s = exec (decodeWord w) t :=
  ((fetchReadsAtThePcAndAFaultKeepsIt s hrunning hboundary hnostop).1 w t hread).2

/-- The word at a valid program counter runs. -/
theorem step_of_valid {s : State} (hrunning : s.halted = false) (hboundary : s.wait = none)
    (hnostop : (envTurn s).stopPending = false) (hvalid : s.mem.valid s.pc = true) :
    step s = exec (decodeWord (s.mem.readWord s.pc.toNat)) (envTurn s) := by
  refine step_of_memRead hrunning hboundary hnostop ?_
  rw [← envTurn_mem s] at hvalid ⊢
  exact memRead_of_valid hvalid

/-- Settles O23: the word read is the join of the four bytes. -/
theorem stepRunsTheDecodedInstruction : Obligations.StepRunsTheDecodedInstruction := by
  intro s i hrunning hboundary hnostop hvalid hdecode
  obtain rfl : decodeWord (s.mem.readWord s.pc.toNat) = i := Except.ok.inj hdecode
  exact step_of_valid hrunning hboundary hnostop hvalid

/-- Settles O38: the write leaves the schedule and the program counter alone. -/
theorem nextFetchSeesTheWrite : Obligations.NextFetchSeesTheWrite := by
  intro s t v hwf hrunning hboundary hnostop hvalid hwrite
  rw [memWrite_of_valid hvalid v, Access.completed.injEq] at hwrite
  obtain rfl := hwrite.2
  rw [envTurn_stopPending] at hnostop
  have hword := Memory.readWord_writeWord_same hwf ((Memory.valid_iff _ _).1 hvalid).2.2 v
  refine (step_of_valid (s := { s with mem := s.mem.writeWord s.pc.toNat v }) hrunning hboundary
    ((envTurn_stopPending _).trans hnostop) hvalid).trans ?_
  exact congrArg (fun w => exec (decodeWord w) _) hword

/-- Settles O26: the fetch is a keyboard read, and the word 0 is a GUARD word. -/
theorem fetchAtTheSentinelTakesACharacter : Obligations.FetchAtTheSentinelTakesACharacter := by
  intro s hrunning hboundary hnostop hpc
  have hstep : ∀ {b t}, kbdRead params (envTurn s) = some (b, t) → step s = exec (decodeWord (b.setWidth 32)) t :=
    fun hk => step_of_memRead hrunning hboundary hnostop (by rw [hpc, memRead_ioAddr hk])
  refine ⟨fun b rest hkbd => hstep (kbdRead_of_cons hkbd), fun hkbd => ?_⟩
  rw [hstep (kbdRead_of_nil params_kbdStrategy hkbd), decodeWord_of_lt (by decide), exec_guard, envTurn_diag]

/-! ### An EXT word (R120) -/

/-- Settles O19: the trace text and the behaviour of the word now in `cur`. -/
theorem extWordAdvancesDecodesTestsExecutes : Obligations.ExtWordAdvancesDecodesTestsExecutes :=
  fun w s => exec_ext w s

/-- Settles O20. -/
theorem extWordRunsItsConditionRow : Obligations.ExtWordRunsItsConditionRow := by
  intro w s
  rw [exec_ext, decode, exec_decodeCond, setCurrent_advance]

/-- Settles O52: a behaviour cannot write the trace, and no step before it does but the trace text itself. -/
theorem traceHoldsPassedInstructions : Obligations.TraceHoldsPassedInstructions := by
  intro c w s
  by_cases hw : 16 ≤ w.toNat
  · cases hpass : condPass (c.decode w).cond s.flags with
    | true =>
      rw [cycleWord_of_condPass hw hpass, executeWord, (runBehaviour_performs c _ _ _).trace, traceText_trace]
      simp [hw]
    | false => simp [cycleWord_of_condPass_false hw hpass]
  · simp [cycleWord_of_guard (Nat.not_le.1 hw), hw]

/-! ### Cycles of a word with a given behaviour, its condition always true -/

/-- The state a behaviour starts from in the cycle of `w` (R113, R114, R117). -/
def behaviourStart (c : Config) (w : Word) (text : String) (s : State) : State :=
  traceText c text (setCurrent w (advance s))

section
variable (c : Config) (w : Word) (text : String) (s : State)

@[simp] theorem behaviourStart_mem : (behaviourStart c w text s).mem = s.mem := by simp [behaviourStart]
@[simp] theorem behaviourStart_flags : (behaviourStart c w text s).flags = s.flags := by simp [behaviourStart]
@[simp] theorem behaviourStart_halted : (behaviourStart c w text s).halted = s.halted := by simp [behaviourStart]
@[simp] theorem behaviourStart_cur : (behaviourStart c w text s).cur = some w := by simp [behaviourStart]
@[simp] theorem behaviourStart_stopPending : (behaviourStart c w text s).stopPending = s.stopPending := by
  simp [behaviourStart]
@[simp] theorem behaviourStart_out : (behaviourStart c w text s).out = s.out := by simp [behaviourStart]
@[simp] theorem behaviourStart_diag : (behaviourStart c w text s).diag = s.diag := by simp [behaviourStart]
@[simp] theorem behaviourStart_env : (behaviourStart c w text s).env = s.env := by simp [behaviourStart]
@[simp] theorem behaviourStart_wait : (behaviourStart c w text s).wait = s.wait := by simp [behaviourStart]
@[simp] theorem behaviourStart_pc : (behaviourStart c w text s).pc = s.pc + 4#32 := by simp [behaviourStart]

theorem reg_behaviourStart {i : RegIndex} (hi : i ≠ 15#4) : (behaviourStart c w text s).reg i = s.reg i := by
  rw [behaviourStart, reg_traceText, reg_setCurrent, reg_advance_of_ne s hi]

variable {c w text}

theorem cycleWord_of_always {b : Behaviour} (hw : 16 ≤ w.toNat)
    (hdecode : c.decode w = { cond := 0b1111#4, exec := b, text }) :
    cycleWord c w s = runBehaviour c b [] (behaviourStart c w text s) := by
  rw [cycleWord_of_condPass hw (by rw [hdecode, condPass_code15]), executeWord, hdecode, behaviourStart]

end

theorem runBehaviour_haltRequest (c : Config) (answers : List Answer) (s : State) :
    runBehaviour c .haltRequest answers s = { envTurn s with halted := true } := by
  rw [runBehaviour, haltWith, Option.toList_none, List.append_nil]

/-- Settles O40. -/
theorem haltRequestStopsWithoutDiagnostic : Obligations.HaltRequestStopsWithoutDiagnostic := by
  refine ⟨runBehaviour_haltRequest, fun c w text s hw hdecode => ?_⟩
  rw [cycleWord_of_always s hw hdecode, runBehaviour_haltRequest]
  have hpc := (pc_envTurn (behaviourStart c w text s)).trans (behaviourStart_pc c w text s)
  have hreg : ∀ i, i ≠ 15#4 → (envTurn (behaviourStart c w text s)).reg i = s.reg i := fun i hi => by
    rw [reg_envTurn, reg_behaviourStart c w text s hi]
  exact ⟨rfl, by simp, hpc, by simp, by simp, by simp, by simp, hreg⟩

/-- Settles O41. -/
theorem behaviourSeesTheAdvancedPc : Obligations.BehaviourSeesTheAdvancedPc := by
  intro c w text k s hw hdecode
  have hpc := (pc_envTurn (behaviourStart c w text s)).trans (behaviourStart_pc c w text s)
  have hread : (envTurn (behaviourStart c w text s)).reg 15#4 = s.pc + 4#32 := hpc
  refine ⟨envTurn (behaviourStart c w text s), ?_, hpc⟩
  rw [cycleWord_of_always s hw hdecode]
  simp only [runBehaviour, hread, List.nil_append]

/-- Settles O42: nothing looks at the target before the next fetch, which faults there. -/
theorem pcWriteTransfersControlUnchecked : Obligations.PcWriteTransfersControlUnchecked := by
  intro c w target text s hw hdecode hrunning hboundary hnostop henv
  have hcycle : cycleWord c w s = (behaviourStart c w text s).setPc target := by
    rw [cycleWord_of_always s hw hdecode, runBehaviour, runBehaviour, envTurn_of_env_nil (by simpa using henv)]
    rfl
  rw [hcycle]
  refine ⟨State.pc_setPc _ _, by simpa using hrunning, by simp, fun i hi => ?_, fun hio hinvalid => ?_⟩
  · exact (State.reg_setReg_of_ne target hi).trans (reg_behaviourStart c w text s hi)
  · have hturn : envTurn ((behaviourStart c w text s).setPc target) = (behaviourStart c w text s).setPc target :=
      envTurn_of_env_nil (by simpa using henv)
    have hsettled : boundary c ((behaviourStart c w text s).setPc target) =
        .settled (raiseAddressFault ((behaviourStart c w text s).setPc target)) := by
      rw [boundary_of_running (by simpa using hrunning) (by simpa using hboundary) (by simpa [hturn] using hnostop),
        hturn]
      exact fetch_of_invalid (by rwa [State.pc_setPc]) (by simpa using hinvalid)
    rw [engineLoop_of_settled hsettled]
    exact ⟨State.pc_setPc _ _, rfl, by simp [raiseAddressFault]⟩

end Sys2Proof.Machine
end

section
/-! PROOFS. No rollback (40_engine_cycle.md section 3, 42_execute_interface.md section 3): four writes, each kept when
the access after them faults. -/

namespace Sys2Proof.Machine

/-- What is written before the faulting access: a register, a flag, a word of memory and a character. -/
structure EarlierWrites where
  reg : RegIndex
  regValue : Word
  flag : Flag
  flagValue : Bool
  addr : Word
  word : Word
  char : Word

namespace EarlierWrites

/-- The behaviour that makes the writes and then goes on with `rest`. -/
def andThen (e : EarlierWrites) (c : Config) (rest : Behaviour) : Behaviour :=
  .regSet e.reg e.regValue (.flagSet e.flag e.flagValue (.busWrite e.addr e.word (.busWrite c.ioAddr e.char rest)))

/-- After the first two writes, the environment having its turn before each and before the store. -/
def beforeStore (e : EarlierWrites) (s : State) : State :=
  envTurn ((envTurn ((envTurn s).setReg e.reg e.regValue)).setFlag e.flag e.flagValue)

/-- After the store. -/
def afterStore (e : EarlierWrites) (s : State) : State :=
  { e.beforeStore s with mem := (e.beforeStore s).mem.writeWord e.addr.toNat e.word }

/-- After the character, the last of the writes. -/
def after (e : EarlierWrites) (s : State) : State :=
  charOut (e.char.extractLsb' 0 8) (envTurn (e.afterStore s))

section
variable (e : EarlierWrites) (s : State)

@[simp] theorem after_mem : (e.after s).mem = s.mem.writeWord e.addr.toNat e.word := by
  simp [after, afterStore, beforeStore]
@[simp] theorem after_flags : (e.after s).flags = s.flags.set e.flag e.flagValue := by
  simp [after, afterStore, beforeStore, State.setFlag]
@[simp] theorem after_cur : (e.after s).cur = s.cur := by simp [after, afterStore, beforeStore]
@[simp] theorem after_diag : (e.after s).diag = s.diag := by simp [after, afterStore, beforeStore]
@[simp] theorem after_out : (e.after s).out = s.out ++ [e.char.extractLsb' 0 8] := by
  simp [after, afterStore, beforeStore]

theorem reg_after (j : RegIndex) : (e.after s).reg j = ((envTurn s).setReg e.reg e.regValue).reg j := by
  have hstore : (e.afterStore s).reg j = (e.beforeStore s).reg j := rfl
  rw [after, reg_charOut, reg_envTurn, hstore, beforeStore, reg_envTurn, State.reg_setFlag, reg_envTurn]

variable {e s}

theorem reg_after_same (h : e.reg ≠ 0#4) : (e.after s).reg e.reg = e.regValue := by
  rw [reg_after, State.reg_setReg_same _ h]

theorem reg_after_of_ne {j : RegIndex} (h : j ≠ e.reg) : (e.after s).reg j = s.reg j := by
  rw [reg_after, State.reg_setReg_of_ne _ h, reg_envTurn]

theorem runBehaviour_andThen {c : Config} (hvalid : s.mem.valid e.addr = true) (rest : Behaviour)
    (answers : List Answer) :
    runBehaviour c (e.andThen c rest) answers s = runBehaviour c rest answers (e.after s) := by
  have hvalid' : (e.beforeStore s).mem.valid e.addr = true := by simpa [beforeStore] using hvalid
  rw [andThen, runBehaviour, runBehaviour, runBehaviour_busWrite _ _ (memWrite_of_valid hvalid' e.word),
    runBehaviour_busWrite _ _ (memWrite_ioAddr c e.char _)]
  rfl

end

/-- The four writes stand in `u`, which has halted with one AddressFault more than `s`, and no other flag or byte of
memory differs from `s`. -/
def Stand (e : EarlierWrites) (s u : State) : Prop :=
  u.reg e.reg = e.regValue ∧ u.flags.get e.flag = e.flagValue ∧ (∀ g, g ≠ e.flag → u.flags.get g = s.flags.get g) ∧
  u.mem.byte e.addr.toNat = e.word.extractLsb' 24 8 ∧ u.mem.byte (e.addr.toNat + 1) = e.word.extractLsb' 16 8 ∧
  u.mem.byte (e.addr.toNat + 2) = e.word.extractLsb' 8 8 ∧ u.mem.byte (e.addr.toNat + 3) = e.word.extractLsb' 0 8 ∧
  (∀ a, a < e.addr.toNat ∨ e.addr.toNat + 4 ≤ a → u.mem.byte a = s.mem.byte a) ∧
  u.out = s.out ++ [e.char.extractLsb' 0 8] ∧ u.halted = true ∧ u.diag = s.diag ++ [.addressFault]

/-- A fault after the writes, with the environment's turn before it, takes none of them back (R219). -/
theorem stand_of_fault (e : EarlierWrites) {s : State} (hreg : e.reg ≠ 0#4) (hwf : s.mem.wf = true)
    (hvalid : s.mem.valid e.addr = true) : e.Stand s (raiseAddressFault (envTurn (e.after s))) := by
  obtain ⟨-, -, hinside⟩ := (Memory.valid_iff _ _).1 hvalid
  have hmem : (raiseAddressFault (envTurn (e.after s))).mem = s.mem.writeWord e.addr.toNat e.word := by
    simp [raiseAddressFault]
  have hflags : (raiseAddressFault (envTurn (e.after s))).flags = s.flags.set e.flag e.flagValue := by
    simp [raiseAddressFault]
  have hbyte : ∀ j < 4, (s.mem.writeWord e.addr.toNat e.word).byte (e.addr.toNat + j) = wordByte e.word j :=
    fun j hj => Memory.byte_writeWord_inside hwf hinside e.word hj
  rw [Stand, hmem, hflags]
  refine ⟨?_, ?_, fun g hg => ?_, hbyte 0 (by omega), hbyte 1 (by omega), hbyte 2 (by omega), hbyte 3 (by omega),
    fun a ha => Memory.byte_writeWord_outside hwf hinside e.word ha, ?_, rfl, ?_⟩
  · rw [raiseAddressFault, reg_haltWith, reg_envTurn, reg_after_same hreg]
  · rw [Flags.get_set, if_pos rfl]
  · rw [Flags.get_set, if_neg hg]
  · simp [raiseAddressFault]
  · simp [raiseAddressFault]

/-- The two behaviours of the statement: the writes, then a write or a read that will fault, then a register write. -/
def IsFaulting (e : EarlierWrites) (c : Config) (addr : Word) (b : Behaviour) : Prop :=
  (∃ z k, b = e.andThen c (.busWrite addr z k)) ∨ ∃ k, b = e.andThen c (.busRead addr k)

theorem IsFaulting.runBehaviour_eq {e : EarlierWrites} {c : Config} {s : State} {addr : Word} {b : Behaviour}
    (hb : e.IsFaulting c addr b) (hvalid : s.mem.valid e.addr = true) (hio : addr ≠ c.ioAddr)
    (hinvalid : s.mem.valid addr = false) (answers : List Answer) :
    runBehaviour c b answers s = raiseAddressFault (envTurn (e.after s)) := by
  have hinvalid' : (e.after s).mem.valid addr = false := by rwa [after_mem, Memory.valid_writeWord]
  rw [raiseAddressFault_envTurn]
  rcases hb with ⟨z, k, rfl⟩ | ⟨k, rfl⟩
  · obtain ⟨-, -, -, -, hwrite⟩ :=
      invalidAccessFaultsAndAbandonsItsCaller c (e.after s) addr z answers (fun _ => .done) k hio hinvalid'
    rw [runBehaviour_andThen hvalid, hwrite]
  · obtain ⟨-, -, -, hread, -⟩ :=
      invalidAccessFaultsAndAbandonsItsCaller c (e.after s) addr 0#32 answers k .done hio hinvalid'
    rw [runBehaviour_andThen hvalid, hread]

/-- In the cycle of a word with such a behaviour, the advance and the decode stand too. -/
theorem IsFaulting.cycleWord_eq {e : EarlierWrites} {c : Config} {w : Word} {text : String} {s : State} {addr : Word}
    {b : Behaviour} (hb : e.IsFaulting c addr b) (hw : 16 ≤ w.toNat)
    (hdecode : c.decode w = { cond := 0b1111#4, exec := b, text }) (hvalid : s.mem.valid e.addr = true)
    (hio : addr ≠ c.ioAddr) (hinvalid : s.mem.valid addr = false) :
    cycleWord c w s = raiseAddressFault (envTurn (e.after (behaviourStart c w text s))) := by
  rw [← behaviourStart_mem c w text s] at hvalid hinvalid
  rw [cycleWord_of_always s hw hdecode, hb.runBehaviour_eq hvalid hio hinvalid]

theorem reg_faulted {e : EarlierWrites} {s : State} {r : RegIndex} (h : r ≠ e.reg) :
    (raiseAddressFault (envTurn (e.after s))).reg r = s.reg r := by
  rw [raiseAddressFault, reg_haltWith, reg_envTurn, reg_after_of_ne h]

theorem cur_faulted (e : EarlierWrites) (s : State) : (raiseAddressFault (envTurn (e.after s))).cur = s.cur := by
  simp [raiseAddressFault]

/-- Where a behaviour starts in its cycle has the flags, memory and streams the cycle started with. -/
theorem stand_of_behaviourStart {e : EarlierWrites} {c : Config} {w : Word} {text : String} {s u : State}
    (h : e.Stand (behaviourStart c w text s) u) : e.Stand s u := by
  rwa [Stand, behaviourStart_mem, behaviourStart_flags, behaviourStart_out, behaviourStart_diag] at h

end EarlierWrites

open EarlierWrites in
/-- Settles O43: the run of either behaviour is the fault after the writes, and a cycle starts it after the advance and
the decode. -/
theorem faultKeepsEarlierEffects : Obligations.FaultKeepsEarlierEffects := by
  intro c answers s i j f b v u x y z good addr k kr hi hj hwf hgood hio hinvalid before writes reads kept faulting hf
  have hfaulting : IsFaulting ⟨i, v, f, b, good, x, y⟩ c addr faulting :=
    hf.imp (fun h => ⟨_, _, h⟩) (fun h => ⟨_, h⟩)
  constructor
  · rw [hfaulting.runBehaviour_eq hgood hio hinvalid]
    exact ⟨stand_of_fault ⟨i, v, f, b, good, x, y⟩ hi hwf hgood, reg_faulted hj, cur_faulted _ s⟩
  · intro w text hw hdecode
    have hstart := behaviourStart_mem c w text s
    rw [hfaulting.cycleWord_eq hw hdecode hgood hio hinvalid]
    refine ⟨stand_of_behaviourStart (stand_of_fault ⟨i, v, f, b, good, x, y⟩ hi (by rwa [hstart]) (by rwa [hstart])),
      (cur_faulted _ _).trans (behaviourStart_cur c w text s), fun hi15 => ?_, fun hj15 => ?_⟩
    · exact (reg_faulted (Ne.symm hi15)).trans (behaviourStart_pc c w text s)
    · exact (reg_faulted hj).trans (reg_behaviourStart c w text s hj15)

end Sys2Proof.Machine
end

section
/-! PROOFS. The keyboard producer beside the engine (20_memory.md section 6), and the blocking strategy (43_char_io.md
section 3): a held read, and a held behaviour that goes on. -/

namespace Sys2Proof.Machine

/-! ### Appends between two reads of one behaviour (R70) -/

/-- Two keyboard reads and two register writes of what they gave, as four operations with a turn before each. -/
theorem runBehaviour_twoReads {c : Config} {s t u : State} {b b' : Byte} (answers : List Answer)
    (hfirst : kbdRead c (envTurn s) = some (b, t)) (hsecond : kbdRead c (envTurn t) = some (b', u)) :
    runBehaviour c (.busRead c.ioAddr fun x => .busRead c.ioAddr fun y => .regSet 1#4 x (.regSet 2#4 y .done))
        answers s =
      (envTurn ((envTurn u).setReg 1#4 (b.setWidth 32))).setReg 2#4 (b'.setWidth 32) := by
  rw [runBehaviour_busRead _ _ (memRead_ioAddr hfirst), runBehaviour_busRead _ _ (memRead_ioAddr hsecond)]
  rfl

theorem reg_of_two_setReg (s : State) (x y : Word) :
    ((envTurn ((envTurn s).setReg 1#4 x)).setReg 2#4 y).reg 1#4 = x ∧
    ((envTurn ((envTurn s).setReg 1#4 x)).setReg 2#4 y).reg 2#4 = y := by
  constructor
  · rw [State.reg_setReg_of_ne _ (by decide), reg_envTurn, State.reg_setReg_same _ (by decide)]
  · rw [State.reg_setReg_same _ (by decide)]

/-- Settles O57: in each of the three schedules it is known what each read finds in the queue. -/
theorem appendMayFallBetweenTwoReads : Obligations.AppendMayFallBetweenTwoReads := by
  intro c s b answers hbuffered hempty twoReads after
  refine ⟨?_, ?_, ?_⟩
  · have hqueue : (envTurn { s with env := [[.key b]] }).kbd = [b] := by simp [envTurn_kbd, hempty, batchKeys]
    have hrun := runBehaviour_twoReads answers (kbdRead_of_cons hqueue)
      (kbdRead_of_nil hbuffered (by simp [envTurn_kbd, envTurn_env]))
    simp only [after, twoReads, hrun]
    exact reg_of_two_setReg _ _ _
  · have hqueue : (envTurn { s with env := [[], [.key b]] }).kbd = [] := by simp [envTurn_kbd, hempty, batchKeys]
    have hqueue' : (envTurn (envTurn { s with env := [[], [.key b]] })).kbd = [b] := by
      rw [envTurn_kbd, hqueue]
      simp [envTurn_env, batchKeys]
    have hrun := runBehaviour_twoReads answers (kbdRead_of_nil hbuffered hqueue) (kbdRead_of_cons hqueue')
    simp only [after, twoReads, hrun]
    exact reg_of_two_setReg _ _ _
  · have hqueue : (envTurn { s with env := [[], [], [.key b]] }).kbd = [] := by simp [envTurn_kbd, hempty, batchKeys]
    have hqueue' : (envTurn (envTurn { s with env := [[], [], [.key b]] })).kbd = [] := by
      rw [envTurn_kbd, hqueue]
      simp [envTurn_env, batchKeys]
    have hrun := runBehaviour_twoReads answers (kbdRead_of_nil hbuffered hqueue) (kbdRead_of_nil hbuffered hqueue')
    simp only [after, twoReads, hrun]
    obtain ⟨hreg1, hreg2⟩ := reg_of_two_setReg (envTurn (envTurn { s with env := [[], [], [.key b]] }))
      ((0#8).setWidth 32) ((0#8).setWidth 32)
    refine ⟨hreg1, hreg2, ?_⟩
    simp [envTurn_kbd, envTurn_env, hempty, batchKeys]

/-! ### A read that holds the engine (R197) -/

theorem memRead_ioAddr_waits {c : Config} {s : State} (hblocking : c.kbdStrategy = .blocking) (hempty : s.kbd = []) :
    memRead c c.ioAddr s = .waits := by
  simp [memRead, isIoAddr_ioAddr, (kbdRead_eq_none_iff c s).2 ⟨hempty, hblocking⟩]

theorem State.with_wait_eq {s : State} {wait : Option Waiting} (h : s.wait = wait) :
    ({ s with wait := wait } : State) = s := by
  rw [← h]

theorem boundary_of_held_fetch {c : Config} {s : State} (hrunning : s.halted = false) (hheld : s.wait = some .fetch)
    (henv : s.env = []) : boundary c s = fetch c { s with wait := none } := by
  simp [boundary, hrunning, hheld, envTurn_of_env_nil henv]

theorem engineLoop_of_held_behaviour {c : Config} {s : State} {w : Word} {answers : List Answer}
    (hrunning : s.halted = false) (hheld : s.wait = some (.behaviour answers)) (henv : s.env = [])
    (hcur : s.cur = some w) :
    engineLoop c s = runBehaviour c ((c.decode w).exec.afterAnswers answers) answers { s with wait := none } := by
  simp [engineLoop, boundary, resumeBehaviour, hrunning, hheld, hcur, envTurn_of_env_nil henv]

/-- Settles O58: the read that held the cycle is tried again, and holds it again. -/
theorem blockingReadHoldsTheEngine : Obligations.BlockingReadHoldsTheEngine := by
  intro c s hblocking hempty henv hrunning
  refine ⟨memRead_ioAddr_waits hblocking hempty, fun hpc hheld => ?_, fun w answers k hcur hheld hafter => ?_⟩
  · have hsettled : boundary c s = .settled s := by
      rw [boundary_of_held_fetch hrunning hheld henv, fetch]
      have hwaits := memRead_ioAddr_waits (s := { s with wait := none }) hblocking hempty
      rw [show State.pc { s with wait := none } = c.ioAddr from hpc, hwaits]
      exact congrArg _ (State.with_wait_eq hheld)
    exact engineLoop_of_settled hsettled
  · have hidle : envTurn { s with wait := none } = { s with wait := none } := envTurn_of_env_nil henv
    have hwaits := memRead_ioAddr_waits (s := { s with wait := none }) hblocking hempty
    rw [engineLoop_of_held_behaviour hrunning hheld henv hcur, hafter, runBehaviour_waits k answers (by rwa [hidle]),
      hidle]
    exact State.with_wait_eq hheld

/-! ### A held behaviour goes on (R197) -/

/-- The state with more characters at the end of the queue. -/
def State.supply (s : State) (more : List Byte) : State := { s with kbd := s.kbd ++ more }

theorem State.supply_setReg (s : State) (more : List Byte) (i : RegIndex) (v : Word) :
    (s.supply more).setReg i v = (s.setReg i v).supply more := by
  unfold State.setReg
  split <;> rfl

/-- A read that completes under the blocking strategy takes the same character when more stand behind it. -/
theorem memRead_supply {c : Config} {addr v : Word} {s t : State} (hblocking : c.kbdStrategy = .blocking)
    (h : memRead c addr s = .completed v t) (more : List Byte) :
    memRead c addr (s.supply more) = .completed v (t.supply more) := by
  rcases memRead_completed h with ⟨hio, b, hk, rfl⟩ | ⟨-, hvalid, rfl, rfl⟩
  · obtain rfl := (isIoAddr_iff c addr).1 hio
    rcases kbdRead_cases hk with ⟨hkbd, ht⟩ | ⟨-, hbuffered, -, -⟩
    · have hkbd' : (s.supply more).kbd = b :: (t.kbd ++ more) := by rw [State.supply, hkbd, List.cons_append]
      rw [memRead_ioAddr_of_cons hkbd', ht]
      rfl
    · rw [hblocking] at hbuffered; cases hbuffered
  · exact memRead_of_valid hvalid

theorem memWrite_supply {c : Config} {addr v : Word} {u : Unit} {s t : State}
    (h : memWrite c addr v s = .completed u t) (more : List Byte) :
    memWrite c addr v (s.supply more) = .completed () (t.supply more) := by
  rcases memWrite_completed h with ⟨hio, rfl⟩ | ⟨-, hvalid, rfl⟩
  · obtain rfl := (isIoAddr_iff c addr).1 hio
    exact memWrite_ioAddr c v _
  · exact memWrite_of_valid (s := s.supply more) hvalid v

/-- With an idle environment, what is left of a held behaviour, run from where it was held with characters supplied, is
the whole behaviour run with those characters behind what there was. The answers it has had say where it stands. -/
theorem runBehaviour_afterAnswers {c : Config} (hblocking : c.kbdStrategy = .blocking) (supplied : List Byte)
    {b : Behaviour} {past answers : List Answer} {s : State} (henv : s.env = []) (hwait : s.wait = none)
    (hheld : (runBehaviour c b past s).wait = some (.behaviour answers)) :
    ∃ rest, answers = past ++ rest ∧
      runBehaviour c (b.afterAnswers rest) answers { runBehaviour c b past s with kbd := supplied, wait := none } =
        runBehaviour c b past (s.supply supplied) := by
  have hturn {s : State} (henv : s.env = []) : envTurn (s.supply supplied) = s.supply supplied :=
    envTurn_of_env_nil henv
  induction b generalizing past s with
  | done => rw [runBehaviour, hwait] at hheld; cases hheld
  | haltRequest => rw [runBehaviour, haltWith_wait, envTurn_wait, hwait] at hheld; cases hheld
  | regGet i k ih =>
    simp only [runBehaviour, envTurn_of_env_nil henv] at hheld ⊢
    obtain ⟨rest, hanswers, hrun⟩ := ih _ henv hwait hheld
    refine ⟨.word (s.reg i) :: rest, by simp [hanswers], ?_⟩
    rw [hturn henv]
    exact hrun
  | regSet i v k ih =>
    simp only [runBehaviour, envTurn_of_env_nil henv, hturn henv, State.supply_setReg] at hheld ⊢
    exact ih (by simpa using henv) (by simpa using hwait) hheld
  | flagGet f k ih =>
    simp only [runBehaviour, envTurn_of_env_nil henv] at hheld ⊢
    obtain ⟨rest, hanswers, hrun⟩ := ih _ henv hwait hheld
    refine ⟨.flag (s.flags.get f) :: rest, by simp [hanswers], ?_⟩
    rw [hturn henv]
    exact hrun
  | flagSet f v k ih =>
    simp only [runBehaviour, envTurn_of_env_nil henv, hturn henv] at hheld ⊢
    exact ih henv hwait hheld
  | busRead addr k ih =>
    simp only [runBehaviour, envTurn_of_env_nil henv, hturn henv] at hheld ⊢
    cases h : memRead c addr s with
    | completed v t =>
      have hframe := memRead_frame h
      simp only [h, memRead_supply hblocking h] at hheld ⊢
      obtain ⟨rest, hanswers, hrun⟩ := ih v (by rw [hframe]; exact henv) (by rw [hframe]; exact hwait) hheld
      exact ⟨.word v :: rest, by simp [hanswers], hrun⟩
    | faulted t =>
      obtain ⟨-, -, rfl⟩ := memRead_faulted h
      rw [h] at hheld
      exact absurd (hwait.symm.trans hheld) nofun
    | waits =>
      obtain ⟨-, hempty, -⟩ := memRead_waits h
      rw [h] at hheld
      obtain rfl : past = answers := by simpa using hheld
      have hresumed : { s with kbd := supplied, wait := none } = s.supply supplied := by
        rw [State.supply, hempty, List.nil_append, ← hwait]
      refine ⟨[], (List.append_nil _).symm, ?_⟩
      simp only [hresumed, Behaviour.afterAnswers, runBehaviour, hturn henv]
  | busWrite addr v k ih =>
    simp only [runBehaviour, envTurn_of_env_nil henv, hturn henv] at hheld ⊢
    cases h : memWrite c addr v s with
    | completed u t =>
      obtain ⟨hframe, -, -⟩ := memWrite_frame h
      simp only [h, memWrite_supply h] at hheld ⊢
      exact ih (by rw [hframe]; exact henv) (by rw [hframe]; exact hwait) hheld
    | faulted t =>
      obtain ⟨-, -, rfl⟩ := memWrite_faulted h
      rw [h] at hheld
      exact absurd (hwait.symm.trans hheld) nofun
    | waits => exact absurd h (memWrite_ne_waits c addr v s)

/-- Settles O59: only the blocking strategy holds a behaviour, and what it leaves has the schedule and `cur` of its
start. -/
theorem heldBehaviourGoesOnAsIfNotHeld : Obligations.HeldBehaviourGoesOnAsIfNotHeld := by
  intro c s w answers supplied hwait henv hrunning hcur hheld
  have hperforms := runBehaviour_performs c (c.decode w).exec [] s
  have hblocking : c.kbdStrategy = .blocking := by
    cases hc : c.kbdStrategy with
    | blocking => rfl
    | buffered => rw [hperforms.wait hc, hwait] at hheld; cases hheld
  have hidle : (runBehaviour c (c.decode w).exec [] s).env = [] := by
    obtain ⟨n, henv', -, -⟩ := hperforms.envActed
    rw [henv', henv, List.drop_nil]
  obtain ⟨rest, hanswers, hrun⟩ := runBehaviour_afterAnswers hblocking supplied henv hwait hheld
  obtain rfl : answers = rest := hanswers
  have hrunning' : (runBehaviour c (c.decode w).exec [] s).halted = false := by
    refine (hperforms.wait_or_halted.resolve_left ?_).trans hrunning
    rw [hheld, hwait]
    nofun
  exact (engineLoop_of_held_behaviour (s := { runBehaviour c (c.decode w).exec [] s with kbd := supplied }) hrunning'
    hheld hidle ((runBehaviour_cur c _ _ s).trans hcur)).trans hrun

end Sys2Proof.Machine
end
